-- ==== Sys2Proof/Word.lean ====
section
/-! DEFINITION. The unit the spec counts in, a byte of a frame (R8). Code points, counts and pixel coordinates are plain numbers. -/

namespace Sys2Proof

/-- A byte, 0..255 (R8). -/
abbrev Byte := BitVec 8

end Sys2Proof
end

