-- ==== Sys2Proof/Syntax.lean ====
section
/-! DEFINITION. Images, requests as they stand on the request port, and `Instr`, the eight requests (R3, R81). -/

namespace Sys2Proof

/-- The two pixel values (R11, R51). -/
inductive Pixel where
  | black
  | white
deriving DecidableEq, Repr, Inhabited

/-- The pixels of an image: one value everywhere, or the rows, top row first and leftmost pixel first (R51, R95). -/
inductive Content where
  | uniform (p : Pixel)
  | rows (rs : List (List Pixel))
deriving DecidableEq, Repr

/-- A MonochromeImage (R51). Width and height are natural numbers and may be zero (R83). -/
structure Image where
  width : Nat
  height : Nat
  content : Content
deriving DecidableEq, Repr

/-- One argument of a request record (R81): a number, a text, or an image. -/
inductive Arg where
  | num (v : Int)
  | text (t : List Nat)
  | image (img : Image)
deriving DecidableEq, Repr

/-- A request record `{op, args}` as the caller puts it on the request port, with its 3-bit select code (R81). -/
structure Request where
  op : BitVec 3
  args : List Arg
deriving DecidableEq, Repr

/-- The eight requests (R3). A constructor with its arguments is also what the latch holds (R24):
the operation, and exactly the fields that operation uses. -/
inductive Instr where
  | reset
  | mode (mode : Byte)
  | spacing (dots : Byte)
  | size (w h : Int)
  | text (text : List Nat)
  | feed (lines : Nat)
  | cut
  | raster (img : Image)
deriving DecidableEq, Repr

end Sys2Proof
end

