-- ==== Sys2Proof/Config.lean ====
section
/-! DEFINITION. The parameters of a model of the block (R6), and the free values: constants without a body that
stand for what the sink and the image source decide and for what the spec leaves without a value. -/

namespace Sys2Proof

/-- The PrinterProfile (R21). -/
structure Profile where
  dotWidth : Nat
  maxHeight : Nat
deriving DecidableEq, Repr

/-- ROUNDING (R6, R153, R171). -/
inductive Rounding where
  | exactHalfEven
  | binary64Reference
deriving DecidableEq, Repr

/-- WIDTH_FIT (R6, R164). -/
inductive WidthFit where
  | padUp
  | floorResize
  | cropTrailing
deriving DecidableEq, Repr

/-- HEADER_OVERFLOW (R6, R165). -/
inductive HeaderOverflow where
  | preserve
  | reject
  | clamp
deriving DecidableEq, Repr

/-- TEXT_SIZE_MASKING (R6, R117). -/
inductive TextSizeMasking where
  | perNibble
  | combinedByte
deriving DecidableEq, Repr

/-- The parameters of R6. The three OPEN widths are `none` for the model's own unbounded port. -/
structure Config where
  profile : Profile
  rounding : Rounding
  widthFit : WidthFit
  headerOverflow : HeaderOverflow
  textSizeMasking : TextSizeMasking
  lineBreak : List Nat
  placeholderByte : Byte
  feedCountBits : Option Nat
  imageDimBits : Option Nat
  textMaxLen : Option Nat
deriving DecidableEq, Repr

/-- The default of every parameter, as R6's table gives it. DESIGN CHOICE (log entry 14): the OPEN widths are absent. -/
def Config.default : Config where
  profile := ⟨384, 2000⟩
  rounding := .exactHalfEven
  widthFit := .padUp
  headerOverflow := .preserve
  textSizeMasking := .perNibble
  lineBreak := [0x0A]
  placeholderByte := 0x3F
  feedCountBits := none
  imageDimBits := none
  textMaxLen := none

/-- What the sink answers to an offered byte (R55): `Accepted`, or `Failed`, and then whether the failed byte
reached the printer all the same. -/
inductive SinkAnswer where
  | accepted
  | failed (delivered : Bool)
deriving DecidableEq, Repr, Inhabited

/-- Free value: the sink's answer where no script gives it (R6 SINK, R55), by draw number, sink history and byte.
DESIGN CHOICE (log entry 3). -/
opaque Config.sinkAnswer : Nat → List Byte → Byte → SinkAnswer

/-- Free value: the pixel (x, y) that `Resize(img, w, h)` gives on the call with this number (R6 RESIZE, R156).
Arguments: call number, image, w, h, x, y. DESIGN CHOICE (log entry 4). -/
opaque Config.resizedPixel : Nat → Image → Nat → Nat → Nat → Nat → Pixel

/-- Free value: a pixel read where R52 defines none. Arguments: image, x, y. DESIGN CHOICE (log entry 12). -/
opaque Config.undefinedPixel : Image → Nat → Nat → Pixel

/-- Free value: the height or width R171 computes when a binary64 result overflows. Arguments: the two factors and
the divisor, as in `a × (b / c)`. DESIGN CHOICE (log entry 11). -/
opaque Config.binary64Overflow : Nat → Nat → Nat → Nat

end Sys2Proof
end

