-- ==== Sys2Proof/WellFormed.lean ====
section
/-! DEFINITION. The argument types of R83 that the syntax does not already fix: code points lie in 0..0x10FFFF, and an
image's pixels fill its rectangle. -/

namespace Sys2Proof

/-- Every element is a Unicode code point, 0..0x10FFFF (R24, R83). -/
def textWellFormed (t : List Nat) : Bool :=
  t.all (fun c => decide (c ≤ 0x10FFFF))

/-- The pixels fill the rectangle: `height` rows of `width` pixels (R51). -/
def Image.wellFormed (img : Image) : Bool :=
  match img.content with
  | .uniform _ => true
  | .rows rs => decide (rs.length = img.height) && rs.all (fun r => decide (r.length = img.width))

/-- A request whose arguments have the types of R83. -/
def wellFormed (i : Instr) : Bool :=
  match i with
  | .reset => true
  | .mode _ => true
  | .spacing _ => true
  | .size _ _ => true
  | .text t => textWellFormed t
  | .feed _ => true
  | .cut => true
  | .raster img => img.wellFormed

end Sys2Proof
end

