-- ==== Sys2Proof/Decode.lean ====
section
/-! DEFINITION. The two encodings of R80. The request encoding: `decode` reads a request record into an `Instr`, or
rejects it by name, and `encode` writes one. The frame encoding: `decodeFrame` reads the first printer command of a byte
stream by its leading bytes (R91, R92), and `encodeFrame` writes one (R84 to R88). Last, the host's question about
one word of spec/opcode_table.json. -/

namespace Sys2Proof

/-! ### The request encoding (R81 to R83) -/

/-- Why a record is no request: these records cannot be presented at the port (R82, R83). -/
inductive DecodeError where
  /-- The arguments are not the fields R81 gives that select code. -/
  | wrongArguments
  /-- `mode` or `dots` lies outside 0..255 (R83, D4). -/
  | byteOutOfRange
  /-- `lines` is negative (R83). -/
  | negativeCount
deriving DecidableEq, Repr

/-- An 8-bit argument: a value outside 0..255 is refused, never truncated (R83, D4). -/
def decodeByte (v : Int) : Except DecodeError Byte :=
  if 0 ≤ v ∧ v ≤ 255 then .ok (BitVec.ofInt 8 v) else .error .byteOutOfRange

/-- A natural-number argument (R83). -/
def decodeCount (v : Int) : Except DecodeError Nat :=
  if 0 ≤ v then .ok v.toNat else .error .negativeCount

/-- The select codes of R81's table. All eight select a request (R82). -/
def decode (r : Request) : Except DecodeError Instr :=
  match r.op.toNat, r.args with
  | 0, [] => .ok .reset
  | 1, [.num m] => (decodeByte m).map Instr.mode
  | 2, [.num n] => (decodeByte n).map Instr.spacing
  | 3, [.num w, .num h] => .ok (.size w h)
  | 4, [.text t] => .ok (.text t)
  | 5, [.num n] => (decodeCount n).map Instr.feed
  | 6, [] => .ok .cut
  | 7, [.image img] => .ok (.raster img)
  | _, _ => .error .wrongArguments

/-- The 3-bit select code of a request (R81). -/
def selectCode (i : Instr) : BitVec 3 :=
  match i with
  | .reset => 0b000
  | .mode _ => 0b001
  | .spacing _ => 0b010
  | .size _ _ => 0b011
  | .text _ => 0b100
  | .feed _ => 0b101
  | .cut => 0b110
  | .raster _ => 0b111

/-- The argument fields of a request, in R81's order. -/
def requestArgs (i : Instr) : List Arg :=
  match i with
  | .reset => []
  | .mode m => [.num m.toNat]
  | .spacing n => [.num n.toNat]
  | .size w h => [.num w, .num h]
  | .text t => [.text t]
  | .feed n => [.num n]
  | .cut => []
  | .raster img => [.image img]

/-- The request record of a request (R81). -/
def encode (i : Instr) : Request :=
  ⟨selectCode i, requestArgs i⟩

/-! ### The frame encoding (R84 to R94) -/

/-- The printer commands of R91's frame opcode map. A text line is what R91 calls "any other bytes". -/
inductive WireFrame where
  | escAt
  | escBang (n : Byte)
  | escThree (n : Byte)
  | gsBang (n : Byte)
  | gsVZero (rowBytes rowCount : BitVec 16) (payload : List Byte)
  | escI
  | lineFeed
  | textLine (bytes : List Byte)
deriving DecidableEq, Repr

/-- Why a byte stream starts with no whole command. -/
inductive WireError where
  /-- A raster header is followed by fewer payload bytes than it counts (R235), or by no trailer. -/
  | truncatedRaster
  /-- The byte after the payload is not `0A` (R86); a header truncated to 16 bits shows here (R92, R237). -/
  | missingTrailer
  /-- A text line has no `0A`, or the byte before it is not `0D` (R87, R92). -/
  | unterminatedText
  /-- `decodeCommands` was given less fuel than the stream has commands; `decodeStream` never is. -/
  | outOfFuel
deriving DecidableEq, Repr

/-- A 16-bit field from its low and high byte (R57). -/
def word16 (lo hi : Byte) : BitVec 16 :=
  BitVec.ofNat 16 (lo.toNat + 256 * hi.toNat)

/-- The low byte of a 16-bit field (R57, R90). -/
def lowByte (w : BitVec 16) : Byte :=
  BitVec.ofNat 8 (w.toNat % 256)

/-- The high byte of a 16-bit field (R57, R90). -/
def highByte (w : BitVec 16) : Byte :=
  BitVec.ofNat 8 (w.toNat / 256)

/-- The bytes of a command (R84 to R88): the raster command is its 8-byte header, its payload and `0A`. -/
def encodeFrame (f : WireFrame) : List Byte :=
  match f with
  | .escAt => [0x1B, 0x40]
  | .escBang n => [0x1B, 0x21, n]
  | .escThree n => [0x1B, 0x33, n]
  | .gsBang n => [0x1D, 0x21, n]
  | .gsVZero rb rc payload =>
    [0x1D, 0x76, 0x30, 0x00, lowByte rb, highByte rb, lowByte rc, highByte rc] ++ payload ++ [0x0A]
  | .escI => [0x1B, 0x69]
  | .lineFeed => [0x0A]
  | .textLine bytes => bytes ++ [0x0D, 0x0A]

/-- The body of a text line and what follows it: the line ends at the first `0A`, which a `0D` precedes (R92).
`acc` holds the bytes read so far, last first. -/
def splitTextLine (acc : List Byte) (bs : List Byte) : Except WireError (List Byte × List Byte) :=
  match bs with
  | [] => .error .unterminatedText
  | b :: rest =>
    if b = 0x0A then
      match acc with
      | 0x0D#8 :: body => .ok (body.reverse, rest)
      | _ => .error .unterminatedText
    else splitTextLine (b :: acc) rest

/-- The payload and trailer a raster header announces, and what follows them (R86, R91). -/
def decodeRasterBody (rb rc : BitVec 16) (bs : List Byte) : Except WireError (WireFrame × List Byte) :=
  let n := rb.toNat * rc.toNat
  match bs.drop n with
  | [] => .error .truncatedRaster
  | b :: rest => if b = 0x0A then .ok (.gsVZero rb rc (bs.take n), rest) else .error .missingTrailer

/-- A text line and what follows it (R87, R91). -/
def decodeTextLine (bs : List Byte) : Except WireError (WireFrame × List Byte) :=
  (splitTextLine [] bs).map (fun (body, rest) => (.textLine body, rest))

/-- The first command of a byte stream, by its leading bytes (R91), and the bytes after it. Bytes that start no other
command start a text line, a command cut short among them. DESIGN CHOICE (log entry 17). -/
def decodeFrame (bs : List Byte) : Except WireError (WireFrame × List Byte) :=
  match bs with
  | 0x1B#8 :: 0x40#8 :: rest => .ok (.escAt, rest)
  | 0x1B#8 :: 0x21#8 :: n :: rest => .ok (.escBang n, rest)
  | 0x1B#8 :: 0x33#8 :: n :: rest => .ok (.escThree n, rest)
  | 0x1B#8 :: 0x69#8 :: rest => .ok (.escI, rest)
  | 0x1D#8 :: 0x21#8 :: n :: rest => .ok (.gsBang n, rest)
  | 0x1D#8 :: 0x76#8 :: 0x30#8 :: 0x00#8 :: xL :: xH :: yL :: yH :: rest =>
    decodeRasterBody (word16 xL xH) (word16 yL yH) rest
  | 0x0A#8 :: rest => .ok (.lineFeed, rest)
  | bs => decodeTextLine bs

/-- The commands of a byte stream, at most `fuel` of them. -/
def decodeCommands (fuel : Nat) (bs : List Byte) : Except WireError (List WireFrame) :=
  match fuel, bs with
  | _, [] => .ok []
  | 0, _ :: _ => .error .outOfFuel
  | fuel + 1, bs =>
    match decodeFrame bs with
    | .error e => .error e
    | .ok (f, rest) => (decodeCommands fuel rest).map (fun fs => f :: fs)

/-- All commands of a byte stream. R93: a sequence of frames consistent with R91, not the requests that made it.
A command has at least one byte, so the stream's length is fuel enough. -/
def decodeStream (bs : List Byte) : Except WireError (List WireFrame) :=
  decodeCommands bs.length bs

/-! ### The host's word of the opcode table -/

/-- Pixel k (0 leftmost) of a packed byte: bit 7 - k, 1 is BLACK (R58). -/
def unpackPixel (b : Byte) (k : Nat) : Pixel :=
  if b.getLsbD (7 - k) then .black else .white

/-- The image whose rows pack to this payload (R167): 8 pixels per byte, `rowBytes` bytes per row. A byte the payload
does not hold reads as 0, that is 8 WHITE pixels. -/
def unpackImage (rowBytes rowCount : Nat) (payload : List Byte) : Image :=
  ⟨8 * rowBytes, rowCount,
    if payload.all (fun b => decide (b = 0)) then .uniform .white
    else .rows ((List.range rowCount).map (fun y => (List.range (8 * rowBytes)).map (fun x =>
      unpackPixel (payload.getD (rowBytes * y + x / 8) 0) (x % 8))))⟩

/-- The request a command belongs to in R91's map; one line feed is FEED 1. -/
def requestOfFrame (f : WireFrame) : Instr :=
  match f with
  | .escAt => .reset
  | .escBang n => .mode n
  | .escThree n => .spacing n
  | .gsBang n => .size (n.toNat / 16) (n.toNat % 16)
  | .gsVZero rb rc payload => .raster (unpackImage rb.toNat rc.toNat payload)
  | .escI => .cut
  | .lineFeed => .feed 1
  | .textLine bytes => .text (bytes.map BitVec.toNat)

/-- The request of the command that starts these bytes. The table gives RASTER's row its header only, so payload bytes and
trailer that are absent read as 0 and are not asked for. -/
def requestOfLeadingBytes (bs : List Byte) : Option Instr :=
  match bs with
  | 0x1D#8 :: 0x76#8 :: 0x30#8 :: 0x00#8 :: xL :: xH :: yL :: yH :: rest =>
    let rb := word16 xL xH
    let rc := word16 yL yH
    some (requestOfFrame (.gsVZero rb rc (rest.take (rb.toNat * rc.toNat))))
  | bs =>
    match decodeFrame bs with
    | .ok (f, _) => some (requestOfFrame f)
    | .error _ => none

/-- `n` bytes of `w`, the first byte from bits 7..0. -/
def bytesLowFirst (n w : Nat) : List Byte :=
  match n with
  | 0 => []
  | n + 1 => BitVec.ofNat 8 w :: bytesLowFirst n (w / 256)

/-- The request of a word of spec/opcode_table.json: its bytes laid out with the first byte in bits 7..0, and, where
those start no whole command, with the first byte in the highest bits (98_reader.md reads a row's match as one number).
TEXT's row has no bits at all: it is the empty text. The bits above the row's are 0, so a missing operand byte is 0 and
a raster header's payload is WHITE. DESIGN CHOICE (log entry 17). -/
def decodeTableWord (nbits w : Nat) : Option Instr :=
  if nbits = 0 then some (.text [])
  else
    let bs := bytesLowFirst ((nbits + 7) / 8) w
    let above := List.replicate 8 (0 : Byte)
    match requestOfLeadingBytes (bs ++ above) with
    | some i => some i
    | none => requestOfLeadingBytes (bs.reverse ++ above)

end Sys2Proof
end

