-- ==== Sys2Proof/Machine/State.lean ====
section
/-! DEFINITION. The state of the block (R21, R24, R26, R28) and of its environment (R32, R36, R68), plain data throughout,
and the state after reset (R37). -/

namespace Sys2Proof.Machine

/-- The status a request ends with (R200). -/
inductive Status where
  | ok
  | invalidImage
  | transportWrite
  | scaleUnderflow
  | headerOverflow
deriving DecidableEq, Repr

/-- The phase register (R26). `busy b rest` is `Busy(b :: rest)`: a frame byte not yet offered, and those after it; no step of
R30 leaves or enters `Busy([])`, so it cannot be written down. DEDUCED (log entry 8). -/
inductive Phase where
  | idle
  | busy (b : Byte) (rest : List Byte)
deriving DecidableEq, Repr

/-- What the sink does at one EMIT: it lets the block wait, or it answers (R55, R70). -/
inductive SinkEvent where
  | waits
  | answers (a : SinkAnswer)
deriving DecidableEq, Repr

/-- The reset input at one step (R230). Asserted, it carries the draw for a byte in flight: whether that byte reached the
printer. DESIGN CHOICE (log entry 5). -/
inductive ResetLevel where
  | released
  | asserted (delivered : Bool)
deriving DecidableEq, Repr

/-- The reasons a run may stop with a fault. There is none: an error of the block ends the request, and the block
accepts the next one (R204, R210), so no instruction and no step raises a fault. Safe. DEDUCED (log entry 20). -/
inductive Fault where
deriving DecidableEq, Repr

/-- The reasons a step is refused. No instruction's meaning raises one. -/
inductive Refusal where
  /-- Raised by an arm of `exec` for a request without a meaning; no arm does. Safe. -/
  | notModelled (mnemonic : String)
  /-- Raised by `step` under an illegal profile: no block is constructed (R7). Safe. -/
  | illegalProfile
  /-- Raised by `step` for a record on the request port that is no request (R82, R83). Safe. -/
  | notPresentable (e : DecodeError)
  /-- Raised by `step` for a text with a number above 0x10FFFF or an image whose pixels do not fill it (R83). Safe. -/
  | illFormed
  /-- Raised by `step` for a FEED count that a port of `FEED_COUNT_BITS` bits cannot present (R127). Safe. -/
  | feedCountTooWide
  /-- Raised by `step` for an image that a port of `IMAGE_DIM_BITS` bits cannot present (R6, D2). Safe. -/
  | imageTooLarge
  /-- Raised by `step` for a text longer than `TEXT_MAX_LEN` (R6, D2). Safe. -/
  | textTooLong
deriving DecidableEq, Repr

/-- The machine. R37: no other state exists. -/
structure State where
  /-- The parameters of R6; no step writes them. DESIGN CHOICE (log entry 9). -/
  config : Config
  /-- The registers DOT_WIDTH and MAX_HEIGHT (R21). -/
  profile : Profile
  /-- The phase register (R26). -/
  phase : Phase
  /-- The request latch (R24); `none` is R37's "no value". -/
  lat : Option Instr
  /-- The response port (R28); `none` is "no response pending" (R37). DESIGN CHOICE (log entry 6). -/
  response : Option Status
  /-- The sink history (R32). -/
  hist : List Byte
  /-- The responses delivered, in order (R36). -/
  responses : List Status
  /-- The requests the caller offers, the first of them standing on the request port (R30, R81). -/
  offers : List Request
  /-- The sink's next answers (R55); after them the sink answers freely. -/
  sinkScript : List SinkEvent
  /-- The image source's next answers to `Resize` (R156); pixels they do not list are free. -/
  resizeScript : List Content
  /-- The reset input at the next steps (R230); after them it stays released. -/
  resetInput : List ResetLevel
  /-- The model's own counter of free sink answers (log entry 3). -/
  sinkDraws : Nat
  /-- The model's own counter of resize calls (log entry 4). -/
  resizeDraws : Nat
deriving DecidableEq, Repr

/-- The machine right after reset (R37) with the default parameters (R6), an empty sink history and an environment that
has nothing in hand (log entry 10). -/
def State.reset : State where
  config := Config.default
  profile := Config.default.profile
  phase := .idle
  lat := none
  response := none
  hist := []
  responses := []
  offers := []
  sinkScript := []
  resizeScript := []
  resetInput := []
  sinkDraws := 0
  resizeDraws := 0

end Sys2Proof.Machine
end

