-- ==== Sys2Proof/Machine/Operands.lean ====
section
/-! DEFINITION. What the requests compute from their operands: the size byte (R117), the lines and bytes of a text (R120, R121),
and the reads of an image (R51, R52). -/

namespace Sys2Proof.Machine

/-! ### SIZE -/

/-- `SizeByte(w, h)` (R117). `BitVec.ofInt 8` keeps the low bits of the two's-complement form, as R8 defines `&` on a
negative integer. -/
def sizeByte (masking : TextSizeMasking) (w h : Int) : Byte :=
  match masking with
  | .perNibble => ((BitVec.ofInt 8 w &&& 0x0F) <<< 4) ||| (BitVec.ofInt 8 h &&& 0x0F)
  | .combinedByte => (BitVec.ofInt 8 w <<< 4) ||| BitVec.ofInt 8 h

/-! ### TEXT -/

/-- `Lines(t)`: the text cut at every line break, the breaks dropped (R120). -/
def textLines (breaks : List Nat) (t : List Nat) : List (List Nat) :=
  match t with
  | [] => [[]]
  | c :: cs =>
    if c ∈ breaks then [] :: textLines breaks cs
    else
      match textLines breaks cs with
      | [] => [[c]]
      | l :: ls => (c :: l) :: ls

/-- `Enc(c)`: the code point itself up to 0x7F, the placeholder above (R121, R122). -/
def encodeChar (placeholder : Byte) (c : Nat) : Byte :=
  if c ≤ 0x7F then BitVec.ofNat 8 c else placeholder

/-- One text line on the wire: its bytes, then `0D 0A` (R87, R123). -/
def encodeLine (placeholder : Byte) (l : List Nat) : List Byte :=
  l.map (encodeChar placeholder) ++ [0x0D, 0x0A]

/-- The frame of a text (R123). -/
def textFrame (breaks : List Nat) (placeholder : Byte) (t : List Nat) : List Byte :=
  (textLines breaks t).flatMap (encodeLine placeholder)

/-! ### Images -/

/-- The pixel listed at (x, y), if one is. -/
def contentPixel? (c : Content) (x y : Nat) : Option Pixel :=
  match c with
  | .uniform p => some p
  | .rows rs =>
    match rs[y]? with
    | none => none
    | some r => r[x]?

/-- `PixelRead(img, x, y)`, defined inside the image (R51, R52); outside, and where an image that R83 does not admit
lists no pixel, a free value. DESIGN CHOICE (log entry 12). -/
def pixelRead (img : Image) (x y : Nat) : Pixel :=
  if x < img.width ∧ y < img.height then
    match contentPixel? img.content x y with
    | some p => p
    | none => Config.undefinedPixel img x y
  else Config.undefinedPixel img x y

/-- The pixel (x, y) of the image that `Resize(img, w, h)` answers in this state (R156): what the image source's next answer
lists, and a free value where it lists nothing. DESIGN CHOICE (log entry 4). -/
def resizedRead (s : State) (img : Image) (w h x y : Nat) : Pixel :=
  match s.resizeScript with
  | [] => Config.resizedPixel s.resizeDraws img w h x y
  | c :: _ =>
    match contentPixel? c x y with
    | some p => p
    | none => Config.resizedPixel s.resizeDraws img w h x y

end Sys2Proof.Machine
end

