-- ==== Sys2Proof/Machine/Flags.lean ====
section
/-! DEFINITION. What the block shows of itself: the ready indicator (R29), the numeric status codes (R200), and the
conditions on a profile (R7), on a port of bounded width (R6, R127), and at the end of a run (R36). The block has no other flag (R33). -/

namespace Sys2Proof.Machine

/-- The ready indicator: true exactly when the phase is Idle (R29). -/
def State.ready (s : State) : Bool :=
  match s.phase with
  | .idle => true
  | .busy _ _ => false

/-- The numeric code of a status (R200). -/
def Status.code (st : Status) : Nat :=
  match st with
  | .ok => 0
  | .invalidImage => 1
  | .transportWrite => 2
  | .scaleUnderflow => 3
  | .headerOverflow => 4

/-- The legal profiles (R7). -/
def profileLegal (p : Profile) : Bool :=
  decide (0 < p.dotWidth ∧ p.dotWidth % 8 = 0 ∧ 0 < p.maxHeight)

/-- A run has ended: Idle, and the caller offers no further request (R36). -/
def State.runEnded (s : State) : Bool :=
  s.ready && s.offers.isEmpty

/-- A number that a port field of this width can present; an absent width bounds nothing (R6). -/
def fitsBits (width : Option Nat) (n : Nat) : Bool :=
  match width with
  | none => true
  | some k => decide (n < 2 ^ k)

/-- A length that a port with this bound can present; an absent bound bounds nothing (R6). -/
def fitsLength (bound : Option Nat) (n : Nat) : Bool :=
  match bound with
  | none => true
  | some k => decide (n ≤ k)

/-- What a port of the OPEN widths refuses rather than truncates (R6, R127), if anything. -/
def portRefusal (cfg : Config) (i : Instr) : Option Refusal :=
  match i with
  | .reset => none
  | .mode _ => none
  | .spacing _ => none
  | .size _ _ => none
  | .text t => if fitsLength cfg.textMaxLen t.length then none else some .textTooLong
  | .feed n => if fitsBits cfg.feedCountBits n then none else some .feedCountTooWide
  | .cut => none
  | .raster img =>
    if fitsBits cfg.imageDimBits img.width && fitsBits cfg.imageDimBits img.height then none else some .imageTooLarge

end Sys2Proof.Machine
end

