-- ==== Sys2Proof/Machine/Ops.lean ====
section
/-! DEFINITION. The moves of the execution cycle (R30) over the state: a request latched, responded to, ended by an
error, left waiting; a frame byte offered to the sink; the hardware reset; and the reading of the request port. -/

namespace Sys2Proof.Machine

/-! ### The end of a request -/

/-- `respond st ; phase <- Idle` (R28, R30): the status on the response port and with the caller, the latch without a value (R25). -/
def State.respond (st : Status) (s : State) : State :=
  { s with phase := .idle, lat := none, response := some st, responses := s.responses ++ [st] }

/-- `raise e`, the block's only form of trap entry: it responds and goes Idle; it saves nothing, changes no mode, enters no handler
and offers no further byte (R204). There is no return from it: the next request is accepted as after OK (R210). -/
def State.raiseError (e : Status) (s : State) : State :=
  s.respond e

/-! ### ACCEPT -/

/-- `Frame(lat)`: the request's frame, or the error it ends with before any byte (R10, R31). -/
abbrev FrameResult := Except Status (List Byte)

/-- `lat <- q` (R30). The response port holds no status for the new request. DESIGN CHOICE (log entry 6). -/
def State.latch (i : Instr) (s : State) : State :=
  { s with lat := some i, response := none }

/-- `phase <- Busy(b :: rest)` (R30). -/
def State.beginEmission (b : Byte) (rest : List Byte) (s : State) : State :=
  { s with phase := .busy b rest }

/-- The step ACCEPT of R30 for a request whose frame is already computed (R31). -/
def State.accept (i : Instr) (f : FrameResult) (s : State) : State :=
  match f with
  | .error e => (s.latch i).raiseError e
  | .ok [] => (s.latch i).respond .ok
  | .ok (b :: rest) => (s.latch i).beginEmission b rest

/-- A request offered while Busy is neither accepted nor dropped: it waits on the request port (R30, D3). DEDUCED (log entry 13). -/
def State.waitOnPort (i : Instr) (s : State) : State :=
  { s with offers := encode i :: s.offers }

/-- A request at the port: accepted when Idle, left waiting when Busy (R29, R30). `taken` is the state once the environment's
answers that the frame was computed from are used up. -/
def offerRequest (i : Instr) (f : FrameResult) (taken s : State) : Host.Outcome State Fault Refusal :=
  match s.phase with
  | .idle => .next (taken.accept i f)
  | .busy _ _ => .next (s.waitOnPort i)

/-! ### EMIT -/

/-- The sink takes the offered byte (R55). -/
def State.appendHist (b : Byte) (s : State) : State :=
  { s with hist := s.hist ++ [b] }

/-- The sink accepted byte `b`: the frame goes on, or it was the last byte and the request ends OK (R30). -/
def State.byteAccepted (b : Byte) (rest : List Byte) (s : State) : State :=
  match rest with
  | [] => (s.appendHist b).respond .ok
  | c :: rest => (s.appendHist b).beginEmission c rest

/-- The sink failed byte `b`, which reached the printer or not: the request ends, the rest is never offered (R55, R202, R207). -/
def State.byteFailed (b : Byte) (delivered : Bool) (s : State) : State :=
  if delivered then (s.appendHist b).raiseError .transportWrite else s.raiseError .transportWrite

/-- The sink's answer to `b`. -/
def State.sinkAnswered (b : Byte) (rest : List Byte) (a : SinkAnswer) (s : State) : State :=
  match a with
  | .accepted => s.byteAccepted b rest
  | .failed delivered => s.byteFailed b delivered

/-- The step EMIT of R30. While the sink does not answer, the block waits and keeps all its state (R218); past the script every
byte is answered (R70), freely. DESIGN CHOICE (log entry 3). -/
def State.emit (b : Byte) (rest : List Byte) (s : State) : State :=
  match s.sinkScript with
  | .waits :: events => { s with sinkScript := events }
  | .answers a :: events => { s with sinkScript := events }.sinkAnswered b rest a
  | [] => { s with sinkDraws := s.sinkDraws + 1 }.sinkAnswered b rest (Config.sinkAnswer s.sinkDraws s.hist b)

/-! ### RESET -/

/-- The byte in flight at a hardware reset counts as failed: it reached the printer or not (R230). -/
def State.resolveInFlight (delivered : Bool) (s : State) : State :=
  match s.phase with
  | .idle => s
  | .busy b _ => if delivered then s.appendHist b else s

/-- The hardware reset (R230, R37): Idle, no latch, no response for the request cut off, the configured profile. -/
def State.hardwareReset (delivered : Bool) (s : State) : State :=
  { s.resolveInFlight delivered with
    phase := .idle, lat := none, response := none, profile := s.config.profile }

/-- The reset input of this step, and the state with it used up (log entry 5). -/
def State.sampleReset (s : State) : ResetLevel × State :=
  match s.resetInput with
  | [] => (.released, s)
  | l :: ls => (l, { s with resetInput := ls })

/-! ### The request port -/

/-- The request a record on the port stands for, or why it cannot be presented there (R82, R83, R127). -/
def admitRequest (cfg : Config) (r : Request) : Except Refusal Instr :=
  match decode r with
  | .error e => .error (.notPresentable e)
  | .ok i =>
    if wellFormed i then
      match portRefusal cfg i with
      | some e => .error e
      | none => .ok i
    else .error .illFormed

/-- The state with the first offer taken off the port. -/
def State.takeOffer (s : State) : State :=
  { s with offers := s.offers.tail }

/-- The state with the image source's next resize answer used up (R53: at most one per request). -/
def State.takeResize (s : State) : State :=
  { s with resizeScript := s.resizeScript.tail, resizeDraws := s.resizeDraws + 1 }

/-- The next step samples a released reset input. -/
def State.holdReset (s : State) : State :=
  match s.resetInput with
  | .asserted d :: ls => { s with resetInput := .released :: .asserted d :: ls }
  | _ => s

/-- The request stands first on the port of an Idle block, and no reset is asserted: the next step accepts it. -/
def State.placeRequest (i : Instr) (s : State) : State :=
  { s.holdReset with phase := .idle, lat := none, offers := encode i :: s.offers }

end Sys2Proof.Machine
end

