-- ==== Sys2Proof/Machine/Framer.lean ====
section
/-! DEFINITION. The seven requests of the Command Framer (R110 to R128): the frame each emits. They read only their
operands and the parameters, validate nothing (R111), and never end with an error before emission (R110). -/

namespace Sys2Proof.Machine

/-- RESET, printer initialise (R112): `1B 40`. It does not reset the block (R113). -/
def execReset (s : State) : Host.Outcome State Fault Refusal :=
  offerRequest .reset (.ok [0x1B, 0x40]) s s

/-- MODE, set print mode (R114): `1B 21 mode`, the byte unchanged (R115). -/
def execMode (mode : Byte) (s : State) : Host.Outcome State Fault Refusal :=
  offerRequest (.mode mode) (.ok [0x1B, 0x21, mode]) s s

/-- SPACING, set line spacing (R116): `1B 33 dots`. -/
def execSpacing (dots : Byte) (s : State) : Host.Outcome State Fault Refusal :=
  offerRequest (.spacing dots) (.ok [0x1B, 0x33, dots]) s s

/-- SIZE, set character size (R118): `1D 21 SizeByte(w, h)`; inputs are masked, never refused (R119). -/
def execSize (w h : Int) (s : State) : Host.Outcome State Fault Refusal :=
  offerRequest (.size w h) (.ok [0x1D, 0x21, sizeByte s.config.textSizeMasking w h]) s s

/-- TEXT, print text lines (R123), without an error for an unencodable character (R125) or a delay between lines (R124). -/
def execText (text : List Nat) (s : State) : Host.Outcome State Fault Refusal :=
  offerRequest (.text text) (.ok (textFrame s.config.lineBreak s.config.placeholderByte text)) s s

/-- FEED, feed lines (R126): one `0A` per line; no line, no byte, and OK at once. -/
def execFeed (lines : Nat) (s : State) : Host.Outcome State Fault Refusal :=
  offerRequest (.feed lines) (.ok (List.replicate lines 0x0A)) s s

/-- CUT, cut paper (R128): `1B 69`. -/
def execCut (s : State) : Host.Outcome State Fault Refusal :=
  offerRequest .cut (.ok [0x1B, 0x69]) s s

end Sys2Proof.Machine
end

