-- ==== Sys2Proof/Machine/Rounding.lean ====
section
/-! DEFINITION. The arithmetic of scaling: `RoundQ` (R160), `CeilDiv` (R8), and the binary64 alternative (R171) in
integer arithmetic. -/

namespace Sys2Proof.Machine

/-- `RoundQ(n, d)`: n/d to the nearest integer, ties to even (R160). -/
def roundQ (n d : Nat) : Nat :=
  let q := n / d
  let r := n % d
  if 2 * r < d then q
  else if 2 * r > d then q + 1
  else q + q % 2

/-- `CeilDiv(n, d)` (R8). -/
def ceilDiv (n d : Nat) : Nat :=
  (n + d - 1) / d

/-- A finite non-negative binary64 number, `mant × 2^exp`: its significand is below 2^53, and at least 2^52 above the least exponent. -/
structure Binary64 where
  mant : Nat
  exp : Int
deriving DecidableEq, Repr

/-- The exponent of n/d, that is the e with 2^e ≤ n/d < 2^(e+1), for n, d > 0. -/
def ratioExponent (n d : Nat) : Int :=
  let k : Int := (n.log2 : Int) - (d.log2 : Int)
  if d * 2 ^ k.toNat ≤ n * 2 ^ (-k).toNat then k else k - 1

/-- `fl(n/d)`: n/d rounded to binary64, to nearest, ties to even (R171), with the format's 53-bit significand, least exponent -1074
and overflow at 2^1024; none where it overflows. PRESUMED from IEEE 754 (log entry 22). -/
def roundToBinary64 (n d : Nat) : Option Binary64 :=
  if n = 0 then some ⟨0, -1074⟩
  else
    let q := max (ratioExponent n d - 52) (-1074)
    let m := roundQ (n * 2 ^ (-q).toNat) (d * 2 ^ q.toNat)
    if 2 ^ 1024 ≤ m * 2 ^ q.toNat then none
    else if m = 2 ^ 53 then some ⟨2 ^ 52, q + 1⟩
    else some ⟨m, q⟩

/-- `RNE(x)`: a binary64 number to the nearest integer, ties to even (R171). -/
def nearestInteger (x : Binary64) : Nat :=
  roundQ (x.mant * 2 ^ x.exp.toNat) (2 ^ (-x.exp).toNat)

/-- `fl(a × x)` (R171). -/
def timesBinary64 (a : Nat) (x : Binary64) : Option Binary64 :=
  roundToBinary64 (a * x.mant * 2 ^ x.exp.toNat) (2 ^ (-x.exp).toNat)

/-- `RNE(fl(a × fl(b / c)))` (R171); where a result overflows the format the spec gives none, and it is a free
value. DESIGN CHOICE (log entry 11). -/
def scaleBinary64 (a b c : Nat) : Nat :=
  match roundToBinary64 b c with
  | none => Config.binary64Overflow a b c
  | some r =>
    match timesBinary64 a r with
    | none => Config.binary64Overflow a b c
    | some p => nearestInteger p

/-- `a × (b / c)` rounded, by the ROUNDING policy (R153, R159, R171). -/
def scaleBy (rounding : Rounding) (a b c : Nat) : Nat :=
  match rounding with
  | .exactHalfEven => roundQ (a * b) c
  | .binary64Reference => scaleBinary64 a b c

end Sys2Proof.Machine
end

