-- ==== Sys2Proof/Machine/Scale.lean ====
section
/-! DEFINITION. From an image's size and the profile to what RASTER will send: the two-stage fit (R155, R161, R162), the width
fit (R164), the zero target (R163), the header overflow (R165), and the checks in their order (R208). -/

namespace Sys2Proof.Machine

/-- The candidate height `C`: H × (D / W), rounded (R161, R171). -/
def candidateHeight (rounding : Rounding) (h d w : Nat) : Nat :=
  scaleBy rounding h d w

/-- The final width and height `(W1, H1)` from D, M and C (R162, R171). -/
def finalDims (rounding : Rounding) (d m c : Nat) : Nat × Nat :=
  if c ≤ m then (d, c) else (scaleBy rounding d m c, m)

/-- The resize target width and the byte count per row `(Wr, bpr)` (R164). -/
def fitWidth (fit : WidthFit) (w1 : Nat) : Nat × Nat :=
  match fit with
  | .padUp => (w1, ceilDiv w1 8)
  | .floorResize => (8 * (w1 / 8), w1 / 8)
  | .cropTrailing => (w1, w1 / 8)

/-- The header counts `(hb, hr)` and the payload counts `(pb, pr)` of R165. -/
structure RasterCounts where
  headerBytes : Nat
  headerRows : Nat
  payloadBytes : Nat
  payloadRows : Nat
deriving DecidableEq, Repr

/-- The counts by the HEADER_OVERFLOW policy; none is the error HEADER_OVERFLOW (R165, R205). -/
def rasterCounts (policy : HeaderOverflow) (bpr h1 : Nat) : Option RasterCounts :=
  match policy with
  | .preserve => some ⟨bpr, h1, bpr, h1⟩
  | .reject => if 65535 < bpr ∨ 65535 < h1 then none else some ⟨bpr, h1, bpr, h1⟩
  | .clamp => some ⟨min bpr 65535, min h1 65535, min bpr 65535, min h1 65535⟩

/-- What RASTER will send: the resize target (Wr, H1) and the counts. -/
structure RasterPlan where
  targetWidth : Nat
  targetHeight : Nat
  counts : RasterCounts
deriving DecidableEq, Repr

/-- RASTER's steps up to the choice of the image, with its three checks in their order (R170, R208). -/
def rasterPlan (cfg : Config) (p : Profile) (w h : Nat) : Except Status RasterPlan :=
  if w = 0 ∨ h = 0 then .error .invalidImage
  else
    let c := candidateHeight cfg.rounding h p.dotWidth w
    let dims := finalDims cfg.rounding p.dotWidth p.maxHeight c
    let fit := fitWidth cfg.widthFit dims.1
    if dims.2 = 0 ∨ fit.1 = 0 ∨ fit.2 = 0 then .error .scaleUnderflow
    else
      match rasterCounts cfg.headerOverflow fit.2 dims.2 with
      | none => .error .headerOverflow
      | some counts => .ok ⟨fit.1, dims.2, counts⟩

end Sys2Proof.Machine
end

