-- ==== Sys2Proof/Machine/Raster.lean ====
section
/-! DEFINITION. RASTER, the Raster Image Encoder (R150 to R173): the choice of the image, packing, header and frame. -/

namespace Sys2Proof.Machine

/-- The 8-byte header (R166): the tag, mode 00, and the two counts, each masked to 16 bits and sent low byte first (R57, R90). -/
def rasterHeader (hb hr : Nat) : List Byte :=
  [0x1D, 0x76, 0x30, 0x00,
    BitVec.ofNat 8 (hb &&& 0xFF), BitVec.ofNat 8 ((hb >>> 8) &&& 0xFF),
    BitVec.ofNat 8 (hr &&& 0xFF), BitVec.ofNat 8 ((hr >>> 8) &&& 0xFF)]

/-- The pixel the packer takes for column x: read inside the image's width, WHITE beyond it (R52, R167). -/
def packedPixel (px : Nat → Nat → Pixel) (wr x y : Nat) : Pixel :=
  if x < wr then px x y else .white

/-- The bit of pixel k of a byte, at position 7 - k, set exactly when the pixel is BLACK (R58, R167). -/
def pixelBit (p : Pixel) (k : Nat) : Byte :=
  match p with
  | .black => 1#8 <<< (7 - k)
  | .white => 0

/-- Byte j of row y: pixels 8j to 8j + 7, leftmost in bit 7 (R167). -/
def packByte (px : Nat → Nat → Pixel) (wr j y : Nat) : Byte :=
  (List.range 8).foldl (fun byte k => byte ||| pixelBit (packedPixel px wr (8 * j + k) y) k) 0

/-- The payload: `pr` rows top to bottom of `pb` bytes left to right (R167). -/
def rasterPayload (px : Nat → Nat → Pixel) (wr pb pr : Nat) : List Byte :=
  (List.range pr).flatMap (fun y => (List.range pb).map (fun j => packByte px wr j y))

/-- The image is sent as it is: the resize target is its own size (R157). -/
def bypassesResize (img : Image) (plan : RasterPlan) : Bool :=
  decide (plan.targetWidth = img.width ∧ plan.targetHeight = img.height)

/-- `img1`: the image itself, or the answer of `Resize(img, Wr, H1)` (R156, R157), by its pixels. -/
def chosenPixels (s : State) (img : Image) (plan : RasterPlan) (x y : Nat) : Pixel :=
  if bypassesResize img plan then pixelRead img x y
  else resizedRead s img plan.targetWidth plan.targetHeight x y

/-- Header, payload, trailer (R168). -/
def planFrame (px : Nat → Nat → Pixel) (plan : RasterPlan) : List Byte :=
  rasterHeader plan.counts.headerBytes plan.counts.headerRows
    ++ rasterPayload px plan.targetWidth plan.counts.payloadBytes plan.counts.payloadRows ++ [0x0A]

/-- `Frame(lat)` of RASTER (R170). -/
def rasterFrame (img : Image) (s : State) : FrameResult :=
  match rasterPlan s.config s.profile img.width img.height with
  | .error e => .error e
  | .ok plan => .ok (planFrame (chosenPixels s img plan) plan)

/-- The state once RASTER has called `Resize`, exactly once and only where R157 calls it. -/
def afterResize (img : Image) (s : State) : State :=
  match rasterPlan s.config s.profile img.width img.height with
  | .error _ => s
  | .ok plan => if bypassesResize img plan then s else s.takeResize

/-- RASTER, encode and print a raster image (R170). -/
def execRaster (img : Image) (s : State) : Host.Outcome State Fault Refusal :=
  offerRequest (.raster img) (rasterFrame img s) (afterResize img s) s

end Sys2Proof.Machine
end

