-- ==== Sys2Proof/Machine/Dispatch.lean ====
section
/-! DEFINITION. Every request to its meaning. -/

namespace Sys2Proof.Machine

/-- A request offered to the block (R30, step ACCEPT). -/
def exec (i : Instr) (s : State) : Host.Outcome State Fault Refusal :=
  match i with
  | .reset => Sys2Proof.Machine.execReset s
  | .mode mode => Sys2Proof.Machine.execMode mode s
  | .spacing dots => Sys2Proof.Machine.execSpacing dots s
  | .size w h => Sys2Proof.Machine.execSize w h s
  | .text text => Sys2Proof.Machine.execText text s
  | .feed lines => Sys2Proof.Machine.execFeed lines s
  | .cut => Sys2Proof.Machine.execCut s
  | .raster img => Sys2Proof.Machine.execRaster img s

end Sys2Proof.Machine
end

