-- ==== Sys2Proof/Machine/Step.lean ====
section
/-! DEFINITION. One step of the block (R30): RESET where the reset input is asserted, else EMIT while Busy, else ACCEPT of the
request on the port, else waiting; and the host's way to put a request where the next step accepts it. -/

namespace Sys2Proof.Machine

/-- The step of an Idle block: ACCEPT the offered request, or wait for one and keep all state (R30, R218). -/
def idleStep (s : State) : Host.Outcome State Fault Refusal :=
  match s.offers with
  | [] => .next s
  | r :: _ =>
    match admitRequest s.config r with
    | .error e => .refused e
    | .ok i => exec i s.takeOffer

/-- The step with the reset input released. -/
def runStep (s : State) : Host.Outcome State Fault Refusal :=
  match s.phase with
  | .idle => idleStep s
  | .busy b rest => .next (s.emit b rest)

/-- One step (R30). Under an illegal profile there is no block, so no run (R7). Reset takes precedence over everything (R208). -/
def step (s : State) : Host.Outcome State Fault Refusal :=
  if profileLegal s.profile then
    match s.sampleReset with
    | (.asserted delivered, t) => .next (t.hardwareReset delivered)
    | (.released, t) => runStep t
  else .refused .illegalProfile

/-- `s` with the request of an opcode-table word first on the request port of an Idle block, reset released, so that the next step
runs it; `s` itself where the word stands for no request. The block loads no program: this stands for the caller's offer (log entry 18). -/
def State.withFetchWord (s : State) (nbits w : Nat) : State :=
  match decodeTableWord nbits w with
  | none => s
  | some i => s.placeRequest i

end Sys2Proof.Machine
end

