-- ==== Sys2Proof/Machine/Assembly.lean ====
section
/-! DEFINITION. The written form of requests and images (R95): `assemble` reads a program text into the request records the
caller offers, or rejects it by name. What R95 leaves open (blanks, names, letter case of the words beside the
mnemonics) is a DESIGN CHOICE (log entry 19). -/

namespace Sys2Proof.Machine

/-- Why a program text is not one of R95's. -/
inductive AsmError where
  /-- A line starts with none of R95's words. -/
  | unknownWord
  /-- An operand is absent or not of the form R95 gives it. -/
  | badOperand
  /-- Something other than a comment follows the last operand. -/
  | trailingText
  /-- A `<byte>` is not in 0..255. -/
  | byteOutOfRange
  /-- A string names a code point above 0x10FFFF. -/
  | codePointOutOfRange
  /-- RASTER names an image that no earlier line declares. -/
  | undeclaredImage
  /-- An image row is not W characters, each `#` or `.`. -/
  | badRow
  /-- The text ends before an image has its H rows. -/
  | missingRows
deriving DecidableEq, Repr

/-! ### Characters, blanks and numbers -/

/-- A blank inside a line. -/
def isBlank (c : Char) : Bool :=
  c = ' ' || c = '\t' || c = '\r'

/-- The text without its leading blanks. -/
def skipBlanks (cs : List Char) : List Char :=
  cs.dropWhile isBlank

/-- Nothing but blanks and a comment is left of the line (R95: `;` starts a comment). -/
def atLineEnd (cs : List Char) : Bool :=
  match skipBlanks cs with
  | [] => true
  | c :: _ => c = ';'

/-- A letter in upper case (R95: mnemonics are case-insensitive). -/
def upperChar (c : Char) : Char :=
  if 0x61 ≤ c.toNat ∧ c.toNat ≤ 0x7A then Char.ofNat (c.toNat - 0x20) else c

/-- The characters of a word: neither a blank nor a comment sign. -/
def isWordChar (c : Char) : Bool :=
  !isBlank c && c ≠ ';'

/-- The next word of the line, and the rest. -/
def nextWord (cs : List Char) : List Char × List Char :=
  ((skipBlanks cs).takeWhile isWordChar, (skipBlanks cs).dropWhile isWordChar)

/-- The value of a digit of the base. -/
def digitValue (base : Nat) (c : Char) : Option Nat :=
  let n := (upperChar c).toNat
  let v := if 0x30 ≤ n ∧ n ≤ 0x39 then n - 0x30 else if 0x41 ≤ n ∧ n ≤ 0x46 then n - 0x37 else base
  if v < base then some v else none

/-- The digits from here on, continuing a number; `seen` says that it has a digit already. -/
def digitsFrom (base : Nat) (seen : Bool) (v : Nat) (cs : List Char) : Option (Nat × List Char) :=
  match cs with
  | [] => if seen then some (v, []) else none
  | c :: rest =>
    match digitValue base c with
    | some d => digitsFrom base true (base * v + d) rest
    | none => if seen then some (v, c :: rest) else none

/-- A natural number, decimal or `0x` hexadecimal (R95). -/
def parseNat (cs : List Char) : Option (Nat × List Char) :=
  match skipBlanks cs with
  | '0' :: 'x' :: rest => digitsFrom 16 false 0 rest
  | rest => digitsFrom 10 false 0 rest

/-- A number with an optional minus sign (R95: for SIZE arguments). -/
def parseInt (cs : List Char) : Option (Int × List Char) :=
  match skipBlanks cs with
  | '-' :: rest => (parseNat rest).map (fun (v, r) => (-(v : Int), r))
  | rest => (parseNat rest).map (fun (v, r) => ((v : Int), r))

/-! ### Strings -/

/-- Where the reading of a string stands. -/
inductive StringMode where
  | plain
  | escape
  | braceOpen
  | hexDigits (seen : Bool) (v : Nat)
deriving DecidableEq, Repr

/-- The rest of a string after its opening quote, with the escapes of R95; `acc` holds the code points read, last first. -/
def parseStringBody (m : StringMode) (acc : List Nat) (cs : List Char) :
    Except AsmError (List Nat × List Char) :=
  match cs with
  | [] => .error .badOperand
  | c :: rest =>
    match m with
    | .plain =>
      if c = '"' then .ok (acc.reverse, rest)
      else if c = '\\' then parseStringBody .escape acc rest
      else parseStringBody .plain (c.toNat :: acc) rest
    | .escape =>
      if c = 'n' then parseStringBody .plain (0x0A :: acc) rest
      else if c = 'r' then parseStringBody .plain (0x0D :: acc) rest
      else if c = '\\' then parseStringBody .plain (0x5C :: acc) rest
      else if c = '"' then parseStringBody .plain (0x22 :: acc) rest
      else if c = 'u' then parseStringBody .braceOpen acc rest
      else .error .badOperand
    | .braceOpen =>
      if c.toNat = 0x7B then parseStringBody (.hexDigits false 0) acc rest else .error .badOperand
    | .hexDigits seen v =>
      if c.toNat = 0x7D ∧ seen then
        if v ≤ 0x10FFFF then parseStringBody .plain (v :: acc) rest else .error .codePointOutOfRange
      else
        match digitValue 16 c with
        | some d => parseStringBody (.hexDigits true (16 * v + d)) acc rest
        | none => .error .badOperand

/-- A string in double quotes (R95). -/
def parseString (cs : List Char) : Except AsmError (List Nat × List Char) :=
  match skipBlanks cs with
  | '"' :: rest => parseStringBody .plain [] rest
  | _ => .error .badOperand

/-! ### Lines -/

/-- The images declared so far, and the requests assembled so far, last first. -/
structure AsmState where
  images : List (List Char × Image)
  requests : List Request
deriving DecidableEq, Repr

/-- The request goes into the program, unless more than a comment follows it. -/
def addRequest (i : Instr) (rest : List Char) (st : AsmState) : Except AsmError AsmState :=
  if atLineEnd rest then .ok { st with requests := encode i :: st.requests } else .error .trailingText

/-- The operand `<byte>` (R95). -/
def byteLine (k : Byte → Instr) (rest : List Char) (st : AsmState) : Except AsmError AsmState :=
  match parseNat rest with
  | none => .error .badOperand
  | some (v, r) => if v ≤ 255 then addRequest (k (BitVec.ofNat 8 v)) r st else .error .byteOutOfRange

/-- `SIZE <int>, <int>` (R95). -/
def sizeLine (rest : List Char) (st : AsmState) : Except AsmError AsmState :=
  match parseInt rest with
  | none => .error .badOperand
  | some (w, r) =>
    match skipBlanks r with
    | ',' :: r2 =>
      match parseInt r2 with
      | none => .error .badOperand
      | some (h, r3) => addRequest (.size w h) r3 st
    | _ => .error .badOperand

/-- `TEXT "<string>"` (R95). -/
def textLine (rest : List Char) (st : AsmState) : Except AsmError AsmState :=
  match parseString rest with
  | .error e => .error e
  | .ok (t, r) => addRequest (.text t) r st

/-- `FEED <nat>` (R95). -/
def feedLine (rest : List Char) (st : AsmState) : Except AsmError AsmState :=
  match parseNat rest with
  | none => .error .badOperand
  | some (v, r) => addRequest (.feed v) r st

/-- `RASTER <image-name>` (R95); the latest declaration of a name counts. -/
def rasterLine (rest : List Char) (st : AsmState) : Except AsmError AsmState :=
  let (name, r) := nextWord rest
  match st.images.find? (fun entry => decide (entry.1 = name)) with
  | none => .error .undeclaredImage
  | some entry => addRequest (.raster entry.2) r st

/-- `<W>x<H>` of an IMAGE line, in decimal, so that `0x5` is width 0 and height 5 (95_test_vectors.md P3). -/
def parseDims (cs : List Char) : Option (Nat × Nat × List Char) :=
  match digitsFrom 10 false 0 (skipBlanks cs) with
  | some (w, 'x' :: r) =>
    match digitsFrom 10 false 0 r with
    | some (h, r2) => some (w, h, r2)
    | none => none
  | _ => none

/-- What an IMAGE line declares: a uniform image at once, or one whose rows follow. -/
inductive ImageDecl where
  | filled (name : List Char) (img : Image)
  | rowsFollow (name : List Char) (w h : Nat)
deriving DecidableEq, Repr

/-- `IMAGE <name> <W>x<H>` with or without `FILL BLACK|WHITE` (R95). -/
def imageLine (rest : List Char) : Except AsmError ImageDecl :=
  let (name, r) := nextWord rest
  if name = [] then .error .badOperand
  else
    match parseDims r with
    | none => .error .badOperand
    | some (w, h, r2) =>
      if atLineEnd r2 then .ok (.rowsFollow name w h)
      else
        let (fill, r3) := nextWord r2
        let (colour, r4) := nextWord r3
        if fill.map upperChar ≠ "FILL".toList then .error .trailingText
        else if !atLineEnd r4 then .error .trailingText
        else if colour.map upperChar = "BLACK".toList then .ok (.filled name ⟨w, h, .uniform .black⟩)
        else if colour.map upperChar = "WHITE".toList then .ok (.filled name ⟨w, h, .uniform .white⟩)
        else .error .badOperand

/-- A character of an image row: `#` for BLACK and `.` for WHITE (R95). -/
def rowPixel (c : Char) : Option Pixel :=
  if c = '#' then some .black else if c = '.' then some .white else none

/-- One image row of W pixels, leftmost first (R95). -/
def parseRow (w : Nat) (line : List Char) : Except AsmError (List Pixel) :=
  let word := line.takeWhile isWordChar
  let row := word.filterMap rowPixel
  if row.length = word.length ∧ row.length = w ∧ atLineEnd (line.dropWhile isWordChar) then .ok row
  else .error .badRow

/-- A line that is neither blank nor an IMAGE line or an image row: one request (R95). -/
def requestLine (word rest : List Char) (st : AsmState) : Except AsmError AsmState :=
  if word = "RESET".toList then addRequest .reset rest st
  else if word = "MODE".toList then byteLine .mode rest st
  else if word = "SPACING".toList then byteLine .spacing rest st
  else if word = "SIZE".toList then sizeLine rest st
  else if word = "TEXT".toList then textLine rest st
  else if word = "FEED".toList then feedLine rest st
  else if word = "CUT".toList then addRequest .cut rest st
  else if word = "RASTER".toList then rasterLine rest st
  else .error .unknownWord

/-- An image whose rows are still to come: name, width, height, rows missing, rows read (last first). -/
structure OpenImage where
  name : List Char
  width : Nat
  height : Nat
  missing : Nat
  rows : List (List Pixel)
deriving DecidableEq, Repr

/-- The declared image goes into the table. -/
def closeImage (o : OpenImage) (st : AsmState) : AsmState :=
  { st with images := (o.name, ⟨o.width, o.height, .rows o.rows.reverse⟩) :: st.images }

/-- The lines of a program, `pending` being the image whose rows come next. -/
def assembleLines (pending : Option OpenImage) (st : AsmState) (lines : List (List Char)) :
    Except AsmError AsmState :=
  match lines with
  | [] =>
    match pending with
    | none => .ok st
    | some _ => .error .missingRows
  | line :: rest =>
    match pending with
    | some o =>
      match parseRow o.width line with
      | .error e => .error e
      | .ok row =>
        let o' := { o with missing := o.missing - 1, rows := row :: o.rows }
        if o'.missing = 0 then assembleLines none (closeImage o' st) rest else assembleLines (some o') st rest
    | none =>
      if atLineEnd line then assembleLines none st rest
      else
        let (word, r) := nextWord line
        if word.map upperChar = "IMAGE".toList then
          match imageLine r with
          | .error e => .error e
          | .ok (.filled name img) => assembleLines none { st with images := (name, img) :: st.images } rest
          | .ok (.rowsFollow name w h) =>
            if h = 0 then assembleLines none (closeImage ⟨name, w, 0, 0, []⟩ st) rest
            else assembleLines (some ⟨name, w, h, h, []⟩) st rest
        else
          match requestLine (word.map upperChar) r st with
          | .error e => .error e
          | .ok st' => assembleLines none st' rest

/-- The lines of a text. -/
def splitLines (cs : List Char) : List (List Char) :=
  match cs with
  | [] => [[]]
  | c :: rest =>
    if c = '\n' then [] :: splitLines rest
    else
      match splitLines rest with
      | [] => [[c]]
      | l :: ls => (c :: l) :: ls

/-- A program text as the request records it assembles to, in order (R95). -/
def assemble (source : String) : Except AsmError (List Request) :=
  (assembleLines none ⟨[], []⟩ (splitLines source.toList)).map (fun st => st.requests.reverse)

end Sys2Proof.Machine
end

