-- ==== Sys2Proof/Safety.lean ====
section
/-! DEFINITION. The terms the statements use: the invariant of the block's state, the execution cycle of R30 written as a
relation apart from `step`, binary64 rounding written apart from its computation, the commands of R91's map for each request,
and the frames of a print job. -/

namespace Sys2Proof.Machine

/-- What holds of every state of a block constructed with a legal profile: R22 (the profile is the configured one),
R7 (and legal), R26 (Busy exactly while the latch holds a request), R28 (no status on the port while a request runs, and
a status on the port is the last one delivered). -/
structure Inv (s : State) : Prop where
  profile_configured : s.profile = s.config.profile
  profile_legal : profileLegal s.profile = true
  idle_iff_no_latch : s.phase = .idle ↔ s.lat = none
  no_response_while_busy : s.phase ≠ .idle → s.response = none
  response_is_last : ∀ st, s.response = some st → s.responses.getLast? = some st

/-- A request that a caller can present at the port (R82, R83, R127). -/
def Presentable (cfg : Config) (i : Instr) : Prop :=
  wellFormed i = true ∧ portRefusal cfg i = none

/-- What a run shows, with the block's own registers (R36, R37). -/
structure View where
  profile : Profile
  phase : Phase
  lat : Option Instr
  hist : List Byte
  responses : List Status
deriving DecidableEq, Repr

/-- The view of a state. -/
def viewOf (s : State) : View :=
  ⟨s.profile, s.phase, s.lat, s.hist, s.responses⟩

/-! ### Rounding -/

/-- An integer nearest to v, and the even one of two equally near (R160, R171). -/
def NearestEven (v : ℚ) (r : Nat) : Prop :=
  (∀ m : Nat, |v - r| ≤ |v - m|) ∧ (∀ m : Nat, |v - r| = |v - m| → m ≠ r → r % 2 = 0)

/-- The number that a binary64 datum stands for. -/
def binary64Value (x : Binary64) : ℚ :=
  x.mant * 2 ^ x.exp

/-- The data of binary64, one for each finite non-negative number of the format. PRESUMED from IEEE 754 (log entry 22). -/
def IsBinary64 (x : Binary64) : Prop :=
  x.mant < 2 ^ 53 ∧ -1074 ≤ x.exp ∧ x.exp ≤ 971 ∧ (x.exp = -1074 ∨ 2 ^ 52 ≤ x.mant)

/-- `fl(v)` is `result`: no number where v, rounded to 53 bits, reaches 2^1024; else a binary64 number nearest to v, and of two equally
near the one whose significand is even (R171). -/
def RoundsToBinary64 (v : ℚ) (result : Option Binary64) : Prop :=
  (result = none ↔ 2 ^ 1024 - 2 ^ 970 ≤ v) ∧
  ∀ x, result = some x →
    IsBinary64 x ∧
    ∀ y, IsBinary64 y →
      |v - binary64Value x| ≤ |v - binary64Value y| ∧
      (|v - binary64Value x| = |v - binary64Value y| → binary64Value y ≠ binary64Value x → x.mant % 2 = 0)

/-! ### Frames -/

/-- The frame of a framer request: by its operands and the parameters alone (R110). -/
def framerFrame (cfg : Config) (i : Instr) : Option (List Byte) :=
  match i with
  | .reset => some [0x1B, 0x40]
  | .mode m => some [0x1B, 0x21, m]
  | .spacing n => some [0x1B, 0x33, n]
  | .size w h => some [0x1D, 0x21, sizeByte cfg.textSizeMasking w h]
  | .text t => some (textFrame cfg.lineBreak cfg.placeholderByte t)
  | .feed n => some (List.replicate n 0x0A)
  | .cut => some [0x1B, 0x69]
  | .raster _ => none

/-- The frames and errors a request can have: one for a framer request; for RASTER one for each answer the image source may give
to `Resize`, any pixels whatever (R10, R156, R170). -/
def FrameOf (cfg : Config) (p : Profile) (i : Instr) (f : FrameResult) : Prop :=
  match i with
  | .raster img =>
    match rasterPlan cfg p img.width img.height with
    | .error e => f = .error e
    | .ok plan =>
      ∃ resized : Nat → Nat → Pixel,
        f = .ok (planFrame (fun x y => if bypassesResize img plan then pixelRead img x y else resized x y) plan)
  | i => ∃ bytes, framerFrame cfg i = some bytes ∧ f = .ok bytes

/-- The block's step relation, "these steps, and only these" (R30), with the reset of R230. -/
inductive BlockStep (cfg : Config) (v : View) : View → Prop where
  | acceptError (i : Instr) (e : Status) (idle : v.phase = .idle) (presentable : Presentable cfg i)
      (frame : FrameOf cfg v.profile i (.error e)) :
      BlockStep cfg v { v with lat := none, responses := v.responses ++ [e] }
  | acceptEmpty (i : Instr) (idle : v.phase = .idle) (presentable : Presentable cfg i)
      (frame : FrameOf cfg v.profile i (.ok [])) :
      BlockStep cfg v { v with lat := none, responses := v.responses ++ [.ok] }
  | acceptFrame (i : Instr) (b : Byte) (rest : List Byte) (idle : v.phase = .idle) (presentable : Presentable cfg i)
      (frame : FrameOf cfg v.profile i (.ok (b :: rest))) :
      BlockStep cfg v { v with phase := .busy b rest, lat := some i }
  | emitNext (b c : Byte) (rest : List Byte) (busy : v.phase = .busy b (c :: rest)) :
      BlockStep cfg v { v with phase := .busy c rest, hist := v.hist ++ [b] }
  | emitLast (b : Byte) (busy : v.phase = .busy b []) :
      BlockStep cfg v
        { v with phase := .idle, lat := none, hist := v.hist ++ [b], responses := v.responses ++ [.ok] }
  | emitFailed (b : Byte) (rest arrived : List Byte) (busy : v.phase = .busy b rest)
      (draw : arrived = [] ∨ arrived = [b]) :
      BlockStep cfg v
        { v with phase := .idle, lat := none, hist := v.hist ++ arrived,
                 responses := v.responses ++ [.transportWrite] }
  | reset (arrived : List Byte) (draw : arrived = [] ∨ ∃ b rest, v.phase = .busy b rest ∧ arrived = [b]) :
      BlockStep cfg v
        { v with profile := cfg.profile, phase := .idle, lat := none, hist := v.hist ++ arrived }

/-- `k` steps, stopping at the first refusal (there is no fault). -/
def runSteps (k : Nat) (s : State) : Host.Outcome State Fault Refusal :=
  match k with
  | 0 => .next s
  | k + 1 =>
    match step s with
    | .next t => runSteps k t
    | .fault f => .fault f
    | .refused r => .refused r

/-- The bytes of a job of framer requests: their frames in order (R64). -/
def jobBytes (cfg : Config) (job : List Instr) : List Byte :=
  job.flatMap (fun i => (framerFrame cfg i).getD [])

/-- The commands that R91's map gives a request, in order. A text line holds the bytes of one line (R92: no `0A`, if U+000A is a break and the
placeholder is another byte). A raster command has its plan's counts in the header, each mod 65536, and as many payload bytes as
those header fields say (R91), but for Preserve with a count above 65535, where it has the product of the true counts (R92). -/
def MapCommands (cfg : Config) (p : Profile) (i : Instr) (fs : List WireFrame) : Prop :=
  match i with
  | .reset => fs = [.escAt]
  | .mode m => fs = [.escBang m]
  | .spacing n => fs = [.escThree n]
  | .size w h => fs = [.gsBang (sizeByte cfg.textSizeMasking w h)]
  | .text t =>
    fs = (textLines cfg.lineBreak t).map (fun l => .textLine (l.map (encodeChar cfg.placeholderByte))) ∧
    (0x0A ∈ cfg.lineBreak → cfg.placeholderByte ≠ 0x0A → ∀ bytes, .textLine bytes ∈ fs → (0x0A : Byte) ∉ bytes)
  | .feed n => fs = List.replicate n .lineFeed
  | .cut => fs = [.escI]
  | .raster img =>
    ∃ plan payload, rasterPlan cfg p img.width img.height = .ok plan ∧
      fs = [.gsVZero (BitVec.ofNat 16 plan.counts.headerBytes) (BitVec.ofNat 16 plan.counts.headerRows) payload] ∧
      payload.length = plan.counts.payloadBytes * plan.counts.payloadRows ∧
      (cfg.headerOverflow ≠ .preserve ∨ (plan.counts.payloadBytes ≤ 65535 ∧ plan.counts.payloadRows ≤ 65535) →
        payload.length = (BitVec.ofNat 16 plan.counts.headerBytes).toNat * (BitVec.ofNat 16 plan.counts.headerRows).toNat)

/-- A command that its own bytes give back: a raster payload of the announced length, and a text line without `0A` that begins
like no other command (R91, R92). -/
def frameReadable (f : WireFrame) : Bool :=
  match f with
  | .gsVZero rb rc payload => decide (payload.length = rb.toNat * rc.toNat)
  | .textLine bytes =>
    bytes.all (fun b => decide (b ≠ 0x0A)) &&
      (match bytes with
      | [] => true
      | b :: _ => decide (b ≠ 0x1B ∧ b ≠ 0x1D))
  | _ => true

end Sys2Proof.Machine
end

