-- ==== Sys2Proof/Certificates/Slice0/Obligations.lean ====
section
/-! DEFINITION. The statements about the model, each from the rules its docstring names. -/

open Sys2Proof Sys2Proof.Machine

/-! ### Encoding -/

/-- R81 and the wire table, on words written out by hand: request records, and words of the opcode table. How a table word is
laid out (log entry 17) and that a record holds its image by value (log entry 1) are the model's choices. -/
def Obligations.SampleWordsDecode : Prop :=
  decode ⟨0b000, []⟩ = .ok .reset ∧
  decode ⟨0b001, [.num 0x88]⟩ = .ok (.mode 0x88) ∧
  decode ⟨0b010, [.num 30]⟩ = .ok (.spacing 0x1E) ∧
  decode ⟨0b011, [.num 1, .num (-1)]⟩ = .ok (.size 1 (-1)) ∧
  decode ⟨0b100, [.text [0x48, 0x49]]⟩ = .ok (.text [0x48, 0x49]) ∧
  decode ⟨0b101, [.num 2]⟩ = .ok (.feed 2) ∧
  decode ⟨0b110, []⟩ = .ok .cut ∧
  decode ⟨0b111, [.image ⟨0, 5, .uniform .white⟩]⟩ = .ok (.raster ⟨0, 5, .uniform .white⟩) ∧
  decodeTableWord 16 0x401B = some .reset ∧
  decodeTableWord 24 0x08211B = some (.mode 0x08) ∧
  decodeTableWord 16 0x691B = some .cut

/-- R81: the record of every request decodes to it, whatever its operands. -/
def Obligations.EncodedRequestDecodes : Prop :=
  ∀ i : Instr, decode (encode i) = .ok i

/-- R81, R83: a record that decodes is the record of what it decodes to, so no two records stand for one request and no part of a
record is dropped. -/
def Obligations.DecodedRecordIsTheEncoding : Prop :=
  ∀ (r : Request) (i : Instr), decode r = .ok i → encode i = r

/-- R82: every value of the 3-bit select code selects a request, the one R81's table numbers so. -/
def Obligations.EverySelectCodeSelectsARequest : Prop :=
  ∀ op : BitVec 3, ∃ (args : List Arg) (i : Instr), decode ⟨op, args⟩ = .ok i ∧ selectCode i = op

/-- R82, R83, R6, 93 row 13: what cannot be presented is refused, never truncated. A MODE or SPACING argument outside 0..255 and a negative FEED
count do not decode; and the step of an Idle block refuses, each by its name, a record that is no request's, a text with a code
point above 0x10FFFF, an image whose rows do not fill it, a text longer than TEXT_MAX_LEN and an image too large for IMAGE_DIM_BITS, and
runs the text or image within the bound. The bounds as options and the refusals' names are the model's choice (log entry 14), and
so is the reset input as a list (log entry 5). -/
def Obligations.OutOfRangeArgumentRefused : Prop :=
  (∀ v : Int, (v < 0 ∨ 255 < v) →
    decode ⟨0b001, [.num v]⟩ = .error .byteOutOfRange ∧ decode ⟨0b010, [.num v]⟩ = .error .byteOutOfRange) ∧
  (∀ v : Int, v < 0 → decode ⟨0b101, [.num v]⟩ = .error .negativeCount) ∧
  ∀ (s : State) (r : Request) (rs : List Request), profileLegal s.profile = true → s.resetInput = [] → s.phase = .idle →
    s.offers = r :: rs →
    ((∀ i : Instr, encode i ≠ r) → ∃ e, decode r = .error e ∧ step s = .refused (.notPresentable e)) ∧
    (∀ t, r = encode (.text t) → (∃ c ∈ t, 0x10FFFF < c) → step s = .refused .illFormed) ∧
    (∀ w h rows, r = encode (.raster ⟨w, h, .rows rows⟩) → (rows.length ≠ h ∨ ∃ row ∈ rows, row.length ≠ w) →
      step s = .refused .illFormed) ∧
    (∀ t k, r = encode (.text t) → (∀ c ∈ t, c ≤ 0x10FFFF) → s.config.textMaxLen = some k →
      (k < t.length → step s = .refused .textTooLong) ∧
      (t.length ≤ k → step s = exec (.text t) { s with offers := rs })) ∧
    (∀ img k, r = encode (.raster img) → img.wellFormed = true → s.config.imageDimBits = some k →
      ((2 ^ k ≤ img.width ∨ 2 ^ k ≤ img.height) → step s = .refused .imageTooLarge) ∧
      (img.width < 2 ^ k → img.height < 2 ^ k → step s = exec (.raster img) { s with offers := rs }))

/-- R91, R92: a command's bytes, followed by any others, give the command and leave the others. -/
def Obligations.CommandBytesDecode : Prop :=
  ∀ (f : WireFrame) (after : List Byte), frameReadable f = true → decodeFrame (encodeFrame f ++ after) = .ok (f, after)

/-- R91, R92: the frame of an accepted RASTER whose counts fit 16 bits reads back as one raster command with those counts, as many
payload bytes as their product, and nothing left over of what follows. -/
def Obligations.RasterFrameReadsBack : Prop :=
  ∀ (px : Nat → Nat → Pixel) (wr h1 pb pr : Nat) (after : List Byte), pb ≤ 65535 → pr ≤ 65535 →
    decodeFrame (planFrame px ⟨wr, h1, ⟨pb, pr, pb, pr⟩⟩ ++ after) =
      .ok (.gsVZero (BitVec.ofNat 16 pb) (BitVec.ofNat 16 pr) (rasterPayload px wr pb pr), after) ∧
    (BitVec.ofNat 16 pb).toNat = pb ∧ (BitVec.ofNat 16 pr).toNat = pr ∧
    (rasterPayload px wr pb pr).length = pb * pr

/-- R91, R92, R94: what an accepted request starts to emit is the sequence of commands that R91's map gives that request (`MapCommands`:
its text lines hold no 0A, its raster payload has the length its header says, but for R92's two limits). -/
def Obligations.EmittedFrameIsOfTheMap : Prop :=
  ∀ (i : Instr) (s t : State) (b : Byte) (rest : List Byte), s.phase = .idle → exec i s = .next t →
    t.phase = .busy b rest → ∃ fs : List WireFrame, MapCommands s.config s.profile i fs ∧ b :: rest = fs.flatMap encodeFrame

/-- R93, R236: a text can spell a command, so the stream does not give back the requests. That ACCEPT leaves no status on the
response port is the model's choice (log entry 6). -/
def Obligations.TextCanSpellACommand : Prop :=
  ∀ (s : State), s.phase = .idle → s.config.lineBreak = [0x0A] →
    exec (.text [0x1B, 0x40]) s =
      .next { s with phase := .busy 0x1B [0x40, 0x0D, 0x0A], lat := some (.text [0x1B, 0x40]), response := none } ∧
    decodeFrame [0x1B, 0x40, 0x0D, 0x0A] = .ok (.escAt, [0x0D, 0x0A])

/-- R95: every request of an assembled program is a record that the port decodes to a well-formed request. The details of the
syntax are the model's choice (log entry 19). -/
def Obligations.AssembledRequestsAreWellFormed : Prop :=
  ∀ (source : String) (rs : List Request), assemble source = .ok rs →
    ∀ r ∈ rs, ∃ i, decode r = .ok i ∧ wellFormed i = true

/-! ### Requests accepted by an Idle block: the whole next state -/

/-- R112, R30: RESET. That ACCEPT leaves no status on the response port is the model's choice (log entry 6). -/
def Obligations.ResetAccepted : Prop :=
  ∀ s : State, s.phase = .idle →
    exec .reset s = .next { s with phase := .busy 0x1B [0x40], lat := some .reset, response := none }

/-- R114, R30: MODE, every byte emitted unchanged. That ACCEPT leaves no status on the response port is the model's choice
(log entry 6). -/
def Obligations.ModeAccepted : Prop :=
  ∀ (m : Byte) (s : State), s.phase = .idle →
    exec (.mode m) s = .next { s with phase := .busy 0x1B [0x21, m], lat := some (.mode m), response := none }

/-- R116, R30: SPACING. That ACCEPT leaves no status on the response port is the model's choice (log entry 6). -/
def Obligations.SpacingAccepted : Prop :=
  ∀ (n : Byte) (s : State), s.phase = .idle →
    exec (.spacing n) s = .next { s with phase := .busy 0x1B [0x33, n], lat := some (.spacing n), response := none }

/-- R117, R118, R30: SIZE, whatever the integers; the byte is the one whose value each masking policy gives. That ACCEPT
leaves no status on the response port is the model's choice (log entry 6). -/
def Obligations.SizeAccepted : Prop :=
  ∀ (w h : Int) (s : State), s.phase = .idle →
    ∃ n : Byte,
      exec (.size w h) s =
        .next { s with phase := .busy 0x1D [0x21, n], lat := some (.size w h), response := none } ∧
      (s.config.textSizeMasking = .perNibble → (n.toNat : Int) = 16 * (w % 16) + h % 16) ∧
      (s.config.textSizeMasking = .combinedByte → n = BitVec.ofInt 8 (Int.lor (w * 16) h))

/-- R123, R30: TEXT; its frame is never empty. That ACCEPT leaves no status on the response port is the model's choice (log
entry 6). -/
def Obligations.TextAccepted : Prop :=
  ∀ (t : List Nat) (s : State), s.phase = .idle →
    ∃ (b : Byte) (rest : List Byte),
      b :: rest = (textLines s.config.lineBreak t).flatMap
        (fun l => l.map (encodeChar s.config.placeholderByte) ++ [0x0D, 0x0A]) ∧
      exec (.text t) s = .next { s with phase := .busy b rest, lat := some (.text t), response := none }

/-- R126, R30: FEED of no line ends with OK at once and offers nothing; FEED of n + 1 lines emits as many line feeds. That
ACCEPT leaves no status on the response port is the model's choice (log entry 6). -/
def Obligations.FeedAccepted : Prop :=
  ∀ (n : Nat) (s : State), s.phase = .idle →
    exec (.feed 0) s = .next { s with lat := none, response := some .ok, responses := s.responses ++ [.ok] } ∧
    exec (.feed (n + 1)) s = .next { s with
      phase := .busy 0x0A (List.replicate n 0x0A), lat := some (.feed (n + 1)), response := none }

/-- R128, R30: CUT. That ACCEPT leaves no status on the response port is the model's choice (log entry 6). -/
def Obligations.CutAccepted : Prop :=
  ∀ s : State, s.phase = .idle →
    exec .cut s = .next { s with phase := .busy 0x1B [0x69], lat := some .cut, response := none }

/-- R151, R201: RASTER of an image without columns or rows: the status INVALID_IMAGE and nothing else. That the status stays
on the response port is the model's choice (log entry 6). -/
def Obligations.RasterInvalidImage : Prop :=
  ∀ (img : Image) (s : State), s.phase = .idle → (img.width = 0 ∨ img.height = 0) →
    exec (.raster img) s = .next { s with
      lat := none, response := some .invalidImage, responses := s.responses ++ [.invalidImage] }

/-- R163, R203, R205, R208, R170: past validation RASTER ends with SCALE_UNDERFLOW on a zero target; else with
HEADER_OVERFLOW under Reject and a count above 65535; else it begins its frame. In that order, and both errors before any
byte or resize. The response port (log entry 6) and the form of the image source's answers (log entry 4) are the model's
choices. -/
def Obligations.RasterOutcome : Prop :=
  ∀ (img : Image) (s : State), s.phase = .idle → 0 < img.width → 0 < img.height →
    let c := candidateHeight s.config.rounding img.height s.profile.dotWidth img.width
    let w1 := if c ≤ s.profile.maxHeight then s.profile.dotWidth
      else scaleBy s.config.rounding s.profile.dotWidth s.profile.maxHeight c
    let h1 := if c ≤ s.profile.maxHeight then c else s.profile.maxHeight
    let wr := if s.config.widthFit = .floorResize then 8 * (w1 / 8) else w1
    let bpr := if s.config.widthFit = .padUp then (w1 + 7) / 8 else w1 / 8
    let pb := if s.config.headerOverflow = .clamp then min bpr 65535 else bpr
    let pr := if s.config.headerOverflow = .clamp then min h1 65535 else h1
    let same := decide (wr = img.width ∧ h1 = img.height)
    let px := fun x y => if same then pixelRead img x y else resizedRead s img wr h1 x y
    exec (.raster img) s =
      if h1 = 0 ∨ wr = 0 ∨ bpr = 0 then
        .next { s with
          lat := none, response := some .scaleUnderflow, responses := s.responses ++ [.scaleUnderflow] }
      else if s.config.headerOverflow = .reject ∧ (65535 < bpr ∨ 65535 < h1) then
        .next { s with
          lat := none, response := some .headerOverflow, responses := s.responses ++ [.headerOverflow] }
      else .next { s with
        phase := .busy 0x1D ((rasterHeader pb pr).tail ++ rasterPayload px wr pb pr ++ [0x0A]),
        lat := some (.raster img), response := none,
        resizeScript := if same then s.resizeScript else s.resizeScript.tail,
        resizeDraws := if same then s.resizeDraws else s.resizeDraws + 1 }

/-- R30, R29: a request offered while Busy is neither accepted nor dropped; it waits on the port and changes nothing else.
Its place at the head of the port is DEDUCED (log entry 13). -/
def Obligations.BusyBlockLeavesRequestWaiting : Prop :=
  ∀ (i : Instr) (s : State) (b : Byte) (rest : List Byte), s.phase = .busy b rest →
    exec i s = .next { s with offers := encode i :: s.offers }

/-- No request faults and none is refused, in any state (R82, R204, R210). -/
def Obligations.EveryRequestAnswersANextState : Prop :=
  ∀ (i : Instr) (s : State), ∃ t, exec i s = .next t

/-- R110, R113, R22, R32: accepting a request leaves the parameters, the profile, the sink history, the offers, the sink's
and the reset's scripts alone; only RASTER touches the image source's answers, taking at most one (R53). The environment's
answers as lists and counters are the model's choice (log entries 3 to 5). -/
def Obligations.AcceptFrame : Prop :=
  ∀ (i : Instr) (s t : State), s.phase = .idle → exec i s = .next t →
    t.config = s.config ∧ t.profile = s.profile ∧ t.hist = s.hist ∧ t.offers = s.offers ∧
    t.sinkScript = s.sinkScript ∧ t.resetInput = s.resetInput ∧ t.sinkDraws = s.sinkDraws ∧
    ((t.resizeScript = s.resizeScript ∧ t.resizeDraws = s.resizeDraws) ∨
      ((∃ img, i = .raster img) ∧ t.resizeScript = s.resizeScript.tail ∧ t.resizeDraws = s.resizeDraws + 1))

/-- R31, R110: before emission a framer request ends, if at all, with OK, and RASTER only with INVALID_IMAGE, SCALE_UNDERFLOW or
HEADER_OVERFLOW. -/
def Obligations.PreEmissionStatuses : Prop :=
  ∀ (i : Instr) (s t : State), s.phase = .idle → exec i s = .next t →
    t.responses = s.responses ∨
    (t.phase = .idle ∧ ((∀ img, i ≠ .raster img) ∧ t.responses = s.responses ++ [.ok] ∨
      (∃ img, i = .raster img) ∧ ∃ e, (e = .invalidImage ∨ e = .scaleUnderflow ∨ e = .headerOverflow) ∧
        t.responses = s.responses ++ [e]))

/-! ### What the requests compute -/

/-- R117: the size byte under each policy for any integers; the two agree on 16·w + h in range, and differ for example on (0, 16). -/
def Obligations.SizeByteByPolicy : Prop :=
  (∀ w h : Int,
    ((sizeByte .perNibble w h).toNat : Int) = 16 * (w % 16) + h % 16 ∧
    sizeByte .combinedByte w h = BitVec.ofInt 8 (Int.lor (w * 16) h) ∧
    (0 ≤ w → w ≤ 15 → 0 ≤ h → h ≤ 15 →
      ((sizeByte .perNibble w h).toNat : Int) = 16 * w + h ∧ ((sizeByte .combinedByte w h).toNat : Int) = 16 * w + h)) ∧
  sizeByte .perNibble 0 16 = 0x00 ∧ sizeByte .combinedByte 0 16 = 0x10 ∧
  Config.default.textSizeMasking = .perNibble

/-- R120: a text without a break is one line; the first break ends the first line and is dropped; so k breaks give k + 1 lines,
none of which holds a break. The spec's three examples, under the default break. -/
def Obligations.TextLinesCutAtBreaks : Prop :=
  (∀ (breaks l : List Nat), (∀ c ∈ l, c ∉ breaks) →
    textLines breaks l = [l] ∧
    ∀ (b : Nat) (t : List Nat), b ∈ breaks → textLines breaks (l ++ b :: t) = l :: textLines breaks t) ∧
  (∀ (breaks t : List Nat),
    (textLines breaks t).length = t.countP (fun c => decide (c ∈ breaks)) + 1 ∧
    ∀ l ∈ textLines breaks t, ∀ c ∈ l, c ∉ breaks) ∧
  Config.default.lineBreak = [0x0A] ∧
  textLines [0x0A] [] = [[]] ∧ textLines [0x0A] [0x61, 0x0A] = [[0x61], []] ∧ textLines [0x0A] [0x0A] = [[], []]

/-- R120: with one break code point, putting it back between the lines gives the text. -/
def Obligations.TextLinesRejoin : Prop :=
  ∀ (b : Nat) (t : List Nat), [b].intercalate (textLines [b] t) = t

/-- R121, R122: one byte per code point, itself up to 0x7F and the placeholder above, 0x3F by default. -/
def Obligations.CharacterEncoding : Prop :=
  (∀ (p : Byte) (c : Nat),
    (c ≤ 0x7F → (encodeChar p c).toNat = c) ∧ (0x7F < c → encodeChar p c = p)) ∧
  Config.default.placeholderByte = 0x3F

/-- R123: the length of a text frame is len(text) - k + 2(k + 1) for k line breaks. -/
def Obligations.TextFrameLength : Prop :=
  ∀ (breaks t : List Nat) (p : Byte),
    let k := t.countP (fun c => decide (c ∈ breaks))
    (textFrame breaks p t).length + k = t.length + 2 * (k + 1)

/-- R87: under the default line break, and a placeholder other than 0A, the frame holds no 0A but the one that ends each line. -/
def Obligations.LineFeedsOnlyEndLines : Prop :=
  ∀ (t : List Nat) (p : Byte), p ≠ 0x0A →
    (textFrame [0x0A] p t).countP (fun b => decide (b = 0x0A)) = (textLines [0x0A] t).length ∧
    ∀ l ∈ textLines [0x0A] t, ∀ b ∈ l.map (encodeChar p), b ≠ 0x0A

/-- R160: RoundQ is a nearest integer, and the even one of two equally near. -/
def Obligations.RoundQNearestTiesToEven : Prop :=
  (∀ n d : Nat, 0 < d →
    (∀ m : Nat, |(n : ℚ) / d - roundQ n d| ≤ |(n : ℚ) / d - m|) ∧
    (∀ m : Nat, |(n : ℚ) / d - roundQ n d| = |(n : ℚ) / d - m| → m ≠ roundQ n d → roundQ n d % 2 = 0)) ∧
  roundQ 3 2 = 2 ∧ roundQ 5 2 = 2 ∧ roundQ 1 2 = 0 ∧ roundQ 7 2 = 4

/-- R161, R162, R171. Under ExactHalfEven: width priority while the candidate fits the cap; else the cap, and a width no larger than the
dot width, not always a multiple of 8. Under Binary64Reference: C = RNE(fl(H × fl(D / W))), and W1 = D or, in the capped branch,
RNE(fl(D × fl(M / C))), where `fl` rounds to binary64 and `RNE` to an integer, both to nearest, ties to even. The figures of the
format are PRESUMED (log entry 22), and where `fl` overflows the result is a free value (log entry 11). -/
def Obligations.TwoStageFit : Prop :=
  (∀ (h d w m : Nat), 0 < w → 0 < m →
    let c := candidateHeight .exactHalfEven h d w
    c = roundQ (h * d) w ∧
    (c ≤ m → finalDims .exactHalfEven d m c = (d, c)) ∧
    (m < c → finalDims .exactHalfEven d m c = (roundQ (d * m) c, m) ∧ (finalDims .exactHalfEven d m c).1 ≤ d)) ∧
  finalDims .exactHalfEven 16 6 8 = (12, 6) ∧
  (∀ n d : Nat, 0 < d → RoundsToBinary64 ((n : ℚ) / d) (roundToBinary64 n d)) ∧
  (∀ (a : Nat) (x : Binary64), RoundsToBinary64 (a * binary64Value x) (timesBinary64 a x)) ∧
  (∀ x : Binary64, NearestEven (binary64Value x) (nearestInteger x)) ∧
  (∀ (h d w : Nat) (r p : Binary64), 0 < w → roundToBinary64 d w = some r → timesBinary64 h r = some p →
    candidateHeight .binary64Reference h d w = nearestInteger p) ∧
  ∀ d m c : Nat, 0 < m →
    (c ≤ m → finalDims .binary64Reference d m c = (d, c)) ∧
    (m < c → ∀ r p : Binary64, roundToBinary64 m c = some r → timesBinary64 d r = some p →
      finalDims .binary64Reference d m c = (nearestInteger p, m))

/-- R172: the aspect of the image is kept within one half of a pixel in both branches, and under PadUp only padding is added. -/
def Obligations.AspectKept : Prop :=
  ∀ (h d w m : Nat), 0 < w → 0 < m → 0 < d →
    let c := candidateHeight .exactHalfEven h d w
    let w1 := (finalDims .exactHalfEven d m c).1
    |(c : ℚ) - h * d / w| ≤ 1 / 2 ∧
    |(c : ℚ) / d - h / w| ≤ 1 / (2 * d) ∧
    (m < c → |(w1 : ℚ) - d * m / c| ≤ 1 / 2 ∧ |(w1 : ℚ) / m - d / c| ≤ 1 / (2 * m)) ∧
    w1 ≤ 8 * (fitWidth .padUp w1).2 ∧ w1 - (fitWidth .floorResize w1).1 ≤ 7

/-- R164: what each policy pads or drops, at most 7 pixels; on a multiple of 8 the three agree. -/
def Obligations.WidthFitPolicies : Prop :=
  ∀ w1 : Nat,
    ((fitWidth .padUp w1).1 = w1 ∧ w1 ≤ 8 * (fitWidth .padUp w1).2 ∧ 8 * (fitWidth .padUp w1).2 ≤ w1 + 7) ∧
    ((fitWidth .floorResize w1).1 = 8 * (fitWidth .floorResize w1).2 ∧ (fitWidth .floorResize w1).1 ≤ w1 ∧
      w1 ≤ (fitWidth .floorResize w1).1 + 7) ∧
    ((fitWidth .cropTrailing w1).1 = w1 ∧ 8 * (fitWidth .cropTrailing w1).2 ≤ w1 ∧
      w1 ≤ 8 * (fitWidth .cropTrailing w1).2 + 7) ∧
    (w1 % 8 = 0 → ∀ fit, fitWidth fit w1 = (w1, w1 / 8))

/-- R90, R166: the 8 header bytes; each 16-bit field, low byte first, holds its count mod 65536 (R57). -/
def Obligations.HeaderHoldsCountsMod65536 : Prop :=
  ∀ hb hr : Nat, ∃ xL xH yL yH : Byte,
    rasterHeader hb hr = [0x1D, 0x76, 0x30, 0x00, xL, xH, yL, yH] ∧
    xL.toNat + 256 * xH.toNat = hb % 65536 ∧ yL.toNat + 256 * yH.toNat = hr % 65536

/-- R165: the header and payload counts of the three policies; only Reject can end in an error, exactly on overflow. -/
def Obligations.HeaderOverflowPolicies : Prop :=
  ∀ bpr h1 : Nat,
    rasterCounts .preserve bpr h1 = some ⟨bpr, h1, bpr, h1⟩ ∧
    (rasterCounts .reject bpr h1 = none ↔ 65535 < bpr ∨ 65535 < h1) ∧
    (∀ k, rasterCounts .reject bpr h1 = some k → k = ⟨bpr, h1, bpr, h1⟩) ∧
    ∃ k, rasterCounts .clamp bpr h1 = some k ∧ k.headerBytes = k.payloadBytes ∧ k.headerRows = k.payloadRows ∧
      k.headerBytes ≤ 65535 ∧ k.headerRows ≤ 65535 ∧ (bpr ≤ 65535 → k.headerBytes = bpr) ∧
      (h1 ≤ 65535 → k.headerRows = h1) ∧ (65535 < bpr → k.headerBytes = 65535) ∧ (65535 < h1 → k.headerRows = 65535)

/-- R169: a raster frame is 8 + pb · pr + 1 bytes long, under every policy. -/
def Obligations.RasterFrameLength : Prop :=
  ∀ (px : Nat → Nat → Pixel) (plan : RasterPlan),
    (planFrame px plan).length = 8 + plan.counts.payloadBytes * plan.counts.payloadRows + 1

/-- R167, R58, R60: pr rows of pb bytes; pixel 8j + k of row y is bit 7 - k of byte j of that row, set exactly when it lies inside the
width and is BLACK. -/
def Obligations.PixelsPackMsbFirst : Prop :=
  ∀ (px : Nat → Nat → Pixel) (wr pb pr : Nat),
    (rasterPayload px wr pb pr).length = pb * pr ∧
    ∀ j k y : Nat, j < pb → k < 8 → y < pr →
      ∃ b : Byte, (rasterPayload px wr pb pr)[pb * y + j]? = some b ∧
        b.getLsbD (7 - k) = decide (8 * j + k < wr ∧ px (8 * j + k) y = .black)

/-- R52, R167: the packer uses no pixel outside the resize target's width, the bytes and the rows it sends. -/
def Obligations.PackerReadsOnlyInside : Prop :=
  ∀ (px qx : Nat → Nat → Pixel) (wr pb pr : Nat),
    (∀ x y, x < wr → x < 8 * pb → y < pr → px x y = qx x y) →
    rasterPayload px wr pb pr = rasterPayload qx wr pb pr

/-- R52: whatever is read inside a well-formed image is the pixel it lists, so no free value is read there. -/
def Obligations.WellFormedImageIsFullyRead : Prop :=
  ∀ (img : Image) (x y : Nat), img.wellFormed = true → x < img.width → y < img.height →
    contentPixel? img.content x y = some (pixelRead img x y)

/-- R157, R173: an image of the dot width, not higher than the cap, is sent unscaled: no resize call, its own pixels and
height, W/8 bytes per row. That ACCEPT leaves no status on the response port is the model's choice (log entry 6). -/
def Obligations.DotWidthImageIsNotRescaled : Prop :=
  ∀ (img : Image) (s : State), s.phase = .idle → s.config.rounding = .exactHalfEven →
    s.config.headerOverflow = .preserve → profileLegal s.profile = true → img.width = s.profile.dotWidth →
    0 < img.height → img.height ≤ s.profile.maxHeight →
    exec (.raster img) s = .next { s with
      phase := .busy 0x1D ((rasterHeader (img.width / 8) img.height).tail ++
        rasterPayload (pixelRead img) img.width (img.width / 8) img.height ++ [0x0A]),
      lat := some (.raster img), response := none }

/-! ### Emission -/

/-- R30, R55: one EMIT, by the sink's answer, with the reset input absent or released (`u` is the state once its level is sampled). The
sink waits; or it answers, by its script or, past the script, freely (`v` is the state once the answer is taken). The sink's answers as
a list, then free with a counter, are the model's choice (log entry 3), and so are the reset input as a list (log entry 5) and the
response port's hold of the status (log entry 6). -/
def Obligations.EmitFollowsTheSink : Prop :=
  ∀ (s u : State) (b : Byte) (rest : List Byte), profileLegal s.profile = true → s.phase = .busy b rest →
    (s.resetInput = [] ∧ u = s ∨ ∃ ls, s.resetInput = .released :: ls ∧ u = { s with resetInput := ls }) →
    (∀ es, s.sinkScript = .waits :: es → step s = .next { u with sinkScript := es }) ∧
    ∀ (a : SinkAnswer) (v : State),
      ((∃ es, s.sinkScript = .answers a :: es ∧ v = { u with sinkScript := es }) ∨
        s.sinkScript = [] ∧ a = Config.sinkAnswer s.sinkDraws s.hist b ∧ v = { u with sinkDraws := s.sinkDraws + 1 }) →
      (∀ c cs, a = .accepted → rest = c :: cs →
        step s = .next { v with hist := s.hist ++ [b], phase := .busy c cs }) ∧
      (a = .accepted → rest = [] →
        step s = .next { v with
          hist := s.hist ++ [b], phase := .idle, lat := none,
          response := some .ok, responses := s.responses ++ [.ok] }) ∧
      (∀ delivered, a = .failed delivered →
        step s = .next { v with
          hist := s.hist ++ (if delivered then [b] else []), phase := .idle, lat := none,
          response := some .transportWrite, responses := s.responses ++ [.transportWrite] })

/-- R65, R64: while the sink accepts every byte, a frame is emitted whole and in order, and only then is the request OK. The
sink's answers as a list are the model's choice (log entry 3), and so is the response port's hold of the status (log entry
6). -/
def Obligations.AcceptedFrameIsEmittedWhole : Prop :=
  ∀ (s : State) (b : Byte) (rest : List Byte) (es : List SinkEvent), profileLegal s.profile = true →
    s.resetInput = [] → s.phase = .busy b rest →
    s.sinkScript = List.replicate (rest.length + 1) (.answers .accepted) ++ es →
    runSteps (rest.length + 1) s = .next { s with
      sinkScript := es, hist := s.hist ++ b :: rest, phase := .idle, lat := none,
      response := some .ok, responses := s.responses ++ [.ok] }

/-- R202, R204, R207, R61: when the sink fails byte k of a frame, the k bytes before it stay, the failed byte may have
arrived, nothing after it is offered, and the request ends with TRANSPORT_WRITE. The sink's answers as a list are the model's
choice (log entry 3), and so is the response port's hold of the status (log entry 6). -/
def Obligations.FailedByteEndsTheRequest : Prop :=
  ∀ (s : State) (b : Byte) (rest : List Byte) (k : Nat) (delivered : Bool) (es : List SinkEvent),
    profileLegal s.profile = true → s.resetInput = [] → s.phase = .busy b rest → k ≤ rest.length →
    s.sinkScript = List.replicate k (.answers .accepted) ++ .answers (.failed delivered) :: es →
    runSteps (k + 1) s = .next { s with
      sinkScript := es,
      hist := s.hist ++ (b :: rest).take k ++ (if delivered then ((b :: rest).drop k).take 1 else []),
      phase := .idle, lat := none,
      response := some .transportWrite, responses := s.responses ++ [.transportWrite] }

/-- R70: with no reset to come, a Busy block ends its request within as many steps as bytes are left and waits are scripted, whatever the
sink answers. The model answers every byte past the script (log entry 3), as R70 assumes of the sink. -/
def Obligations.EveryRequestEnds : Prop :=
  ∀ (s : State) (b : Byte) (rest : List Byte), profileLegal s.profile = true → s.resetInput = [] →
    s.phase = .busy b rest →
    ∃ n t, n ≤ rest.length + 1 + s.sinkScript.countP (fun e => decide (e = .waits)) ∧ runSteps n s = .next t ∧
      t.phase = .idle ∧
      (t.responses = s.responses ++ [.ok] ∧ t.hist = s.hist ++ b :: rest ∨
       t.responses = s.responses ++ [.transportWrite] ∧ s.hist <+: t.hist ∧ t.hist <+: s.hist ++ b :: rest)

/-- R64, R110: a job of framer requests on an accepting sink prints their frames one after the other in the order of
acceptance, with one OK for each. The sink's answers as a list are the model's choice (log entry 3), and so is the response
port's hold of the status (log entry 6). -/
def Obligations.JobPrintsFramesInOrder : Prop :=
  ∀ (job : List Instr) (s : State) (later : List Request) (es : List SinkEvent), profileLegal s.profile = true →
    s.resetInput = [] → s.phase = .idle → s.lat = none →
    (∀ i ∈ job, Presentable s.config i ∧ ∃ bytes, framerFrame s.config i = some bytes) →
    s.offers = job.map encode ++ later →
    s.sinkScript = List.replicate (jobBytes s.config job).length (.answers .accepted) ++ es →
    runSteps (job.length + (jobBytes s.config job).length) s = .next { s with
      offers := later, sinkScript := es, hist := s.hist ++ jobBytes s.config job,
      response := if job = [] then s.response else some .ok,
      responses := s.responses ++ List.replicate job.length .ok }

/-! ### The step -/

/-- R30: the step of an Idle block with a presentable request on the port is that request's `exec`, once the request is off
the port and the released reset input is sampled. The reset input as a list is the model's choice (log entry 5). -/
def Obligations.StepRunsTheOfferedRequest : Prop :=
  ∀ (s : State) (r : Request) (rs : List Request) (i : Instr), profileLegal s.profile = true → s.phase = .idle →
    s.offers = r :: rs → decode r = .ok i → wellFormed i = true → portRefusal s.config i = none →
    (s.resetInput = [] → step s = exec i { s with offers := rs }) ∧
    (∀ ls, s.resetInput = .released :: ls → step s = exec i { s with offers := rs, resetInput := ls })

/-- R218: an Idle block without a request, and a Busy block whose sink does not answer, keep all state. That a wait is a step
is DEDUCED (log entry 21), and the scripts are the model's choice (log entries 3 and 5). -/
def Obligations.WaitingKeepsAllState : Prop :=
  ∀ s : State, profileLegal s.profile = true → s.resetInput = [] →
    (s.phase = .idle → s.offers = [] → step s = .next s) ∧
    (∀ b rest es, s.phase = .busy b rest → s.sinkScript = .waits :: es → step s = .next { s with sinkScript := es })

/-- R7: under an illegal profile, and only on that ground, a step is refused so. That the step is what refuses is DEDUCED
(log entry 15). -/
def Obligations.IllegalProfileIsRefused : Prop :=
  ∀ s : State, step s = .refused .illegalProfile ↔
    ¬ (0 < s.profile.dotWidth ∧ s.profile.dotWidth % 8 = 0 ∧ 0 < s.profile.maxHeight)

/-- R127: the model's own port takes any FEED count; a port of bounded width refuses a count it cannot present, and truncates
none. The widths as options (log entry 14) and the reset input as a list (log entry 5) are the model's choices. -/
def Obligations.NarrowPortRefusesFeedCount : Prop :=
  ∀ (s : State) (n : Nat) (rs : List Request), profileLegal s.profile = true → s.resetInput = [] → s.phase = .idle →
    s.offers = encode (.feed n) :: rs →
    (s.config.feedCountBits = none → step s = exec (.feed n) { s with offers := rs }) ∧
    ∀ k, s.config.feedCountBits = some k →
      (2 ^ k ≤ n → step s = .refused .feedCountTooWide) ∧ (n < 2 ^ k → step s = exec (.feed n) { s with offers := rs })

/-- R230, R37: an asserted reset, in any phase: Idle, no latch, no response, the configured profile, no byte offered, and the
byte in flight in the history or not. The reset input as a list is the model's choice (log entry 5). -/
def Obligations.HardwareReset : Prop :=
  ∀ (s : State) (delivered : Bool) (ls : List ResetLevel), profileLegal s.profile = true →
    s.resetInput = .asserted delivered :: ls →
    (s.phase = .idle → step s = .next { s with
      resetInput := ls, phase := .idle, lat := none, response := none, profile := s.config.profile }) ∧
    (∀ b rest, s.phase = .busy b rest → step s = .next { s with
      resetInput := ls, phase := .idle, lat := none, response := none, profile := s.config.profile,
      hist := s.hist ++ (if delivered then [b] else []) })

/-- R37: the values the spec gives for reset, at `State.reset`. The parameters stand in the state by the model's choice (log
entry 9). -/
def Obligations.ResetStateValues : Prop :=
  State.reset.phase = .idle ∧ State.reset.ready = true ∧ State.reset.lat = none ∧ State.reset.response = none ∧
  State.reset.profile.dotWidth = 384 ∧ State.reset.profile.maxHeight = 2000 ∧
  State.reset.config.profile = State.reset.profile

/-- R29: ready exactly when Idle, and true after reset. -/
def Obligations.ReadyExactlyWhenIdle : Prop :=
  (∀ s : State, s.ready = true ↔ s.phase = .idle) ∧ State.reset.ready = true ∧
  ∀ (s : State) (delivered : Bool), (s.hardwareReset delivered).ready = true

/-- R200: the five status codes. -/
def Obligations.StatusCodes : Prop :=
  Status.code .ok = 0 ∧ Status.code .invalidImage = 1 ∧ Status.code .transportWrite = 2 ∧
  Status.code .scaleUnderflow = 3 ∧ Status.code .headerOverflow = 4

/-- R32, R56, R207: no step rewrites or removes a byte of the sink history, and one step appends at most one. -/
def Obligations.HistoryIsAppendOnly : Prop :=
  ∀ s t : State, step s = .next t → t.hist = s.hist ∨ ∃ b rest, s.phase = .busy b rest ∧ t.hist = s.hist ++ [b]

/-- R28: a step delivers at most one response, and only in ending a request, with no reset asserted; the block is then Idle with that
status on its port. And it delivers exactly one whenever a request ends otherwise than by reset: a step without an asserted reset that leads from
Busy to Idle, or that takes a request off the port and stays Idle. That the status stays on the port is the model's choice (log
entry 6). -/
def Obligations.OneResponsePerRequest : Prop :=
  ∀ s t : State, step s = .next t →
    (t.responses = s.responses ∨
      ∃ st, t.responses = s.responses ++ [st] ∧ t.phase = .idle ∧ t.lat = none ∧ t.response = some st ∧
        (∀ delivered ls, s.resetInput ≠ .asserted delivered :: ls) ∧
        ((∃ r rs, s.phase = .idle ∧ s.offers = r :: rs ∧ t.offers = rs) ∨ (∃ b rest, s.phase = .busy b rest))) ∧
    ((∀ delivered ls, s.resetInput ≠ .asserted delivered :: ls) → t.phase = .idle →
      (s.phase ≠ .idle ∨ ∃ r rs, s.offers = r :: rs ∧ t.offers = rs) →
      ∃ st, t.responses = s.responses ++ [st])

/-- R25: the latch is written only by an acceptance; while a request goes on it is read-only. -/
def Obligations.LatchIsReadOnlyWhileBusy : Prop :=
  ∀ s t : State, step s = .next t → s.phase ≠ .idle → t.phase ≠ .idle → t.lat = s.lat ∧ t.offers = s.offers

/-- R26, R28, R22, R7: the invariant holds after reset. Two of the invariant's five parts are the model's choice of what the
response port shows (log entry 6). -/
def Obligations.ResetStateIsGood : Prop :=
  Inv State.reset

/-- R26, R28, R22, R7: every step keeps the invariant, and no step writes the parameters (R6). Two of the invariant's five
parts are the model's choice of what the response port shows (log entry 6). -/
def Obligations.StepKeepsInvariant : Prop :=
  ∀ s t : State, Inv s → step s = .next t → Inv t ∧ t.config = s.config

/-- R30, R230: every step is one of the moves of R30's relation, or a wait that shows nothing. -/
def Obligations.StepRefinesExecutionCycle : Prop :=
  ∀ s t : State, step s = .next t → BlockStep s.config (viewOf s) (viewOf t) ∨ viewOf t = viewOf s

/-- R30, R55, R156, R230: every move of R30's relation is a step, for some environment: no outcome the spec allows is
missing. The environment as lists is the model's choice (log entries 2 to 5). -/
def Obligations.ExecutionCycleMovesAreSteps : Prop :=
  ∀ (cfg : Config) (v v' : View), profileLegal v.profile = true → BlockStep cfg v v' →
    ∃ s t : State, s.config = cfg ∧ viewOf s = v ∧ step s = .next t ∧ viewOf t = v'
end

