-- ==== Sys2Proof/Laws/State.lean ====
section
/-! SUPPORT. What each named update of the state does to each field. -/

namespace Sys2Proof.Machine

/-! ### respond -/

@[simp] theorem State.respond_config (st : Status) (s : State) : (s.respond st).config = s.config := rfl
@[simp] theorem State.respond_profile (st : Status) (s : State) : (s.respond st).profile = s.profile := rfl
@[simp] theorem State.respond_phase (st : Status) (s : State) : (s.respond st).phase = .idle := rfl
@[simp] theorem State.respond_lat (st : Status) (s : State) : (s.respond st).lat = none := rfl
@[simp] theorem State.respond_response (st : Status) (s : State) : (s.respond st).response = some st := rfl
@[simp] theorem State.respond_hist (st : Status) (s : State) : (s.respond st).hist = s.hist := rfl
@[simp] theorem State.respond_responses (st : Status) (s : State) : (s.respond st).responses = s.responses ++ [st] := rfl
@[simp] theorem State.respond_offers (st : Status) (s : State) : (s.respond st).offers = s.offers := rfl
@[simp] theorem State.respond_sinkScript (st : Status) (s : State) : (s.respond st).sinkScript = s.sinkScript := rfl
@[simp] theorem State.respond_resizeScript (st : Status) (s : State) : (s.respond st).resizeScript = s.resizeScript := rfl
@[simp] theorem State.respond_resetInput (st : Status) (s : State) : (s.respond st).resetInput = s.resetInput := rfl
@[simp] theorem State.respond_sinkDraws (st : Status) (s : State) : (s.respond st).sinkDraws = s.sinkDraws := rfl
@[simp] theorem State.respond_resizeDraws (st : Status) (s : State) : (s.respond st).resizeDraws = s.resizeDraws := rfl

/-! ### raiseError -/

@[simp] theorem State.raiseError_config (e : Status) (s : State) : (s.raiseError e).config = s.config := rfl
@[simp] theorem State.raiseError_profile (e : Status) (s : State) : (s.raiseError e).profile = s.profile := rfl
@[simp] theorem State.raiseError_phase (e : Status) (s : State) : (s.raiseError e).phase = .idle := rfl
@[simp] theorem State.raiseError_lat (e : Status) (s : State) : (s.raiseError e).lat = none := rfl
@[simp] theorem State.raiseError_response (e : Status) (s : State) : (s.raiseError e).response = some e := rfl
@[simp] theorem State.raiseError_hist (e : Status) (s : State) : (s.raiseError e).hist = s.hist := rfl
@[simp] theorem State.raiseError_responses (e : Status) (s : State) : (s.raiseError e).responses = s.responses ++ [e] := rfl
@[simp] theorem State.raiseError_offers (e : Status) (s : State) : (s.raiseError e).offers = s.offers := rfl
@[simp] theorem State.raiseError_sinkScript (e : Status) (s : State) : (s.raiseError e).sinkScript = s.sinkScript := rfl
@[simp] theorem State.raiseError_resizeScript (e : Status) (s : State) : (s.raiseError e).resizeScript = s.resizeScript := rfl
@[simp] theorem State.raiseError_resetInput (e : Status) (s : State) : (s.raiseError e).resetInput = s.resetInput := rfl
@[simp] theorem State.raiseError_sinkDraws (e : Status) (s : State) : (s.raiseError e).sinkDraws = s.sinkDraws := rfl
@[simp] theorem State.raiseError_resizeDraws (e : Status) (s : State) : (s.raiseError e).resizeDraws = s.resizeDraws := rfl

/-! ### latch -/

@[simp] theorem State.latch_config (i : Instr) (s : State) : (s.latch i).config = s.config := rfl
@[simp] theorem State.latch_profile (i : Instr) (s : State) : (s.latch i).profile = s.profile := rfl
@[simp] theorem State.latch_phase (i : Instr) (s : State) : (s.latch i).phase = s.phase := rfl
@[simp] theorem State.latch_lat (i : Instr) (s : State) : (s.latch i).lat = some i := rfl
@[simp] theorem State.latch_response (i : Instr) (s : State) : (s.latch i).response = none := rfl
@[simp] theorem State.latch_hist (i : Instr) (s : State) : (s.latch i).hist = s.hist := rfl
@[simp] theorem State.latch_responses (i : Instr) (s : State) : (s.latch i).responses = s.responses := rfl
@[simp] theorem State.latch_offers (i : Instr) (s : State) : (s.latch i).offers = s.offers := rfl
@[simp] theorem State.latch_sinkScript (i : Instr) (s : State) : (s.latch i).sinkScript = s.sinkScript := rfl
@[simp] theorem State.latch_resizeScript (i : Instr) (s : State) : (s.latch i).resizeScript = s.resizeScript := rfl
@[simp] theorem State.latch_resetInput (i : Instr) (s : State) : (s.latch i).resetInput = s.resetInput := rfl
@[simp] theorem State.latch_sinkDraws (i : Instr) (s : State) : (s.latch i).sinkDraws = s.sinkDraws := rfl
@[simp] theorem State.latch_resizeDraws (i : Instr) (s : State) : (s.latch i).resizeDraws = s.resizeDraws := rfl

/-! ### beginEmission -/

@[simp] theorem State.beginEmission_config (b : Byte) (rest : List Byte) (s : State) : (s.beginEmission b rest).config = s.config := rfl
@[simp] theorem State.beginEmission_profile (b : Byte) (rest : List Byte) (s : State) : (s.beginEmission b rest).profile = s.profile := rfl
@[simp] theorem State.beginEmission_phase (b : Byte) (rest : List Byte) (s : State) : (s.beginEmission b rest).phase = .busy b rest := rfl
@[simp] theorem State.beginEmission_lat (b : Byte) (rest : List Byte) (s : State) : (s.beginEmission b rest).lat = s.lat := rfl
@[simp] theorem State.beginEmission_response (b : Byte) (rest : List Byte) (s : State) : (s.beginEmission b rest).response = s.response := rfl
@[simp] theorem State.beginEmission_hist (b : Byte) (rest : List Byte) (s : State) : (s.beginEmission b rest).hist = s.hist := rfl
@[simp] theorem State.beginEmission_responses (b : Byte) (rest : List Byte) (s : State) : (s.beginEmission b rest).responses = s.responses := rfl
@[simp] theorem State.beginEmission_offers (b : Byte) (rest : List Byte) (s : State) : (s.beginEmission b rest).offers = s.offers := rfl
@[simp] theorem State.beginEmission_sinkScript (b : Byte) (rest : List Byte) (s : State) : (s.beginEmission b rest).sinkScript = s.sinkScript := rfl
@[simp] theorem State.beginEmission_resizeScript (b : Byte) (rest : List Byte) (s : State) : (s.beginEmission b rest).resizeScript = s.resizeScript := rfl
@[simp] theorem State.beginEmission_resetInput (b : Byte) (rest : List Byte) (s : State) : (s.beginEmission b rest).resetInput = s.resetInput := rfl
@[simp] theorem State.beginEmission_sinkDraws (b : Byte) (rest : List Byte) (s : State) : (s.beginEmission b rest).sinkDraws = s.sinkDraws := rfl
@[simp] theorem State.beginEmission_resizeDraws (b : Byte) (rest : List Byte) (s : State) : (s.beginEmission b rest).resizeDraws = s.resizeDraws := rfl

/-! ### waitOnPort -/

@[simp] theorem State.waitOnPort_config (i : Instr) (s : State) : (s.waitOnPort i).config = s.config := rfl
@[simp] theorem State.waitOnPort_profile (i : Instr) (s : State) : (s.waitOnPort i).profile = s.profile := rfl
@[simp] theorem State.waitOnPort_phase (i : Instr) (s : State) : (s.waitOnPort i).phase = s.phase := rfl
@[simp] theorem State.waitOnPort_lat (i : Instr) (s : State) : (s.waitOnPort i).lat = s.lat := rfl
@[simp] theorem State.waitOnPort_response (i : Instr) (s : State) : (s.waitOnPort i).response = s.response := rfl
@[simp] theorem State.waitOnPort_hist (i : Instr) (s : State) : (s.waitOnPort i).hist = s.hist := rfl
@[simp] theorem State.waitOnPort_responses (i : Instr) (s : State) : (s.waitOnPort i).responses = s.responses := rfl
@[simp] theorem State.waitOnPort_offers (i : Instr) (s : State) : (s.waitOnPort i).offers = encode i :: s.offers := rfl
@[simp] theorem State.waitOnPort_sinkScript (i : Instr) (s : State) : (s.waitOnPort i).sinkScript = s.sinkScript := rfl
@[simp] theorem State.waitOnPort_resizeScript (i : Instr) (s : State) : (s.waitOnPort i).resizeScript = s.resizeScript := rfl
@[simp] theorem State.waitOnPort_resetInput (i : Instr) (s : State) : (s.waitOnPort i).resetInput = s.resetInput := rfl
@[simp] theorem State.waitOnPort_sinkDraws (i : Instr) (s : State) : (s.waitOnPort i).sinkDraws = s.sinkDraws := rfl
@[simp] theorem State.waitOnPort_resizeDraws (i : Instr) (s : State) : (s.waitOnPort i).resizeDraws = s.resizeDraws := rfl

/-! ### appendHist -/

@[simp] theorem State.appendHist_config (b : Byte) (s : State) : (s.appendHist b).config = s.config := rfl
@[simp] theorem State.appendHist_profile (b : Byte) (s : State) : (s.appendHist b).profile = s.profile := rfl
@[simp] theorem State.appendHist_phase (b : Byte) (s : State) : (s.appendHist b).phase = s.phase := rfl
@[simp] theorem State.appendHist_lat (b : Byte) (s : State) : (s.appendHist b).lat = s.lat := rfl
@[simp] theorem State.appendHist_response (b : Byte) (s : State) : (s.appendHist b).response = s.response := rfl
@[simp] theorem State.appendHist_hist (b : Byte) (s : State) : (s.appendHist b).hist = s.hist ++ [b] := rfl
@[simp] theorem State.appendHist_responses (b : Byte) (s : State) : (s.appendHist b).responses = s.responses := rfl
@[simp] theorem State.appendHist_offers (b : Byte) (s : State) : (s.appendHist b).offers = s.offers := rfl
@[simp] theorem State.appendHist_sinkScript (b : Byte) (s : State) : (s.appendHist b).sinkScript = s.sinkScript := rfl
@[simp] theorem State.appendHist_resizeScript (b : Byte) (s : State) : (s.appendHist b).resizeScript = s.resizeScript := rfl
@[simp] theorem State.appendHist_resetInput (b : Byte) (s : State) : (s.appendHist b).resetInput = s.resetInput := rfl
@[simp] theorem State.appendHist_sinkDraws (b : Byte) (s : State) : (s.appendHist b).sinkDraws = s.sinkDraws := rfl
@[simp] theorem State.appendHist_resizeDraws (b : Byte) (s : State) : (s.appendHist b).resizeDraws = s.resizeDraws := rfl

/-! ### takeOffer -/

@[simp] theorem State.takeOffer_config (s : State) : s.takeOffer.config = s.config := rfl
@[simp] theorem State.takeOffer_profile (s : State) : s.takeOffer.profile = s.profile := rfl
@[simp] theorem State.takeOffer_phase (s : State) : s.takeOffer.phase = s.phase := rfl
@[simp] theorem State.takeOffer_lat (s : State) : s.takeOffer.lat = s.lat := rfl
@[simp] theorem State.takeOffer_response (s : State) : s.takeOffer.response = s.response := rfl
@[simp] theorem State.takeOffer_hist (s : State) : s.takeOffer.hist = s.hist := rfl
@[simp] theorem State.takeOffer_responses (s : State) : s.takeOffer.responses = s.responses := rfl
@[simp] theorem State.takeOffer_offers (s : State) : s.takeOffer.offers = s.offers.tail := rfl
@[simp] theorem State.takeOffer_sinkScript (s : State) : s.takeOffer.sinkScript = s.sinkScript := rfl
@[simp] theorem State.takeOffer_resizeScript (s : State) : s.takeOffer.resizeScript = s.resizeScript := rfl
@[simp] theorem State.takeOffer_resetInput (s : State) : s.takeOffer.resetInput = s.resetInput := rfl
@[simp] theorem State.takeOffer_sinkDraws (s : State) : s.takeOffer.sinkDraws = s.sinkDraws := rfl
@[simp] theorem State.takeOffer_resizeDraws (s : State) : s.takeOffer.resizeDraws = s.resizeDraws := rfl

/-! ### takeResize -/

@[simp] theorem State.takeResize_config (s : State) : s.takeResize.config = s.config := rfl
@[simp] theorem State.takeResize_profile (s : State) : s.takeResize.profile = s.profile := rfl
@[simp] theorem State.takeResize_phase (s : State) : s.takeResize.phase = s.phase := rfl
@[simp] theorem State.takeResize_lat (s : State) : s.takeResize.lat = s.lat := rfl
@[simp] theorem State.takeResize_response (s : State) : s.takeResize.response = s.response := rfl
@[simp] theorem State.takeResize_hist (s : State) : s.takeResize.hist = s.hist := rfl
@[simp] theorem State.takeResize_responses (s : State) : s.takeResize.responses = s.responses := rfl
@[simp] theorem State.takeResize_offers (s : State) : s.takeResize.offers = s.offers := rfl
@[simp] theorem State.takeResize_sinkScript (s : State) : s.takeResize.sinkScript = s.sinkScript := rfl
@[simp] theorem State.takeResize_resizeScript (s : State) : s.takeResize.resizeScript = s.resizeScript.tail := rfl
@[simp] theorem State.takeResize_resetInput (s : State) : s.takeResize.resetInput = s.resetInput := rfl
@[simp] theorem State.takeResize_sinkDraws (s : State) : s.takeResize.sinkDraws = s.sinkDraws := rfl
@[simp] theorem State.takeResize_resizeDraws (s : State) : s.takeResize.resizeDraws = s.resizeDraws + 1 := rfl

end Sys2Proof.Machine
end

