-- ==== Sys2Proof/Laws/Cycle.lean ====
section
/-! SUPPORT. The execution cycle said once: what ACCEPT, EMIT, RESET and the reading of the port can do. -/

namespace Sys2Proof.Machine

/-! ### ACCEPT -/

theorem State.accept_error (i : Instr) (e : Status) (s : State) :
    s.accept i (.error e) =
      { s with phase := .idle, lat := none, response := some e, responses := s.responses ++ [e] } := rfl

theorem State.accept_empty (i : Instr) (s : State) :
    s.accept i (.ok []) =
      { s with phase := .idle, lat := none, response := some .ok, responses := s.responses ++ [.ok] } := rfl

theorem State.accept_cons (i : Instr) (b : Byte) (rest : List Byte) (s : State) :
    s.accept i (.ok (b :: rest)) = { s with phase := .busy b rest, lat := some i, response := none } := rfl

/-- ACCEPT ends the request with an error, ends it with OK for an empty frame, or begins the emission of its frame. -/
theorem State.accept_cases (i : Instr) (f : FrameResult) (s : State) :
    (∃ e, f = .error e ∧ s.accept i f = (s.latch i).raiseError e) ∨
    (f = .ok [] ∧ s.accept i f = (s.latch i).respond .ok) ∨
    (∃ b rest, f = .ok (b :: rest) ∧ s.accept i f = (s.latch i).beginEmission b rest) := by
  match f with
  | .error e => exact .inl ⟨e, rfl, rfl⟩
  | .ok [] => exact .inr (.inl ⟨rfl, rfl⟩)
  | .ok (b :: rest) => exact .inr (.inr ⟨b, rest, rfl, rfl⟩)

theorem offerRequest_idle (i : Instr) (f : FrameResult) (taken s : State) (h : s.phase = .idle) :
    offerRequest i f taken s = .next (taken.accept i f) := by
  simp [offerRequest, h]

theorem offerRequest_busy (i : Instr) (f : FrameResult) (taken s : State) (b : Byte) (rest : List Byte)
    (h : s.phase = .busy b rest) : offerRequest i f taken s = .next (s.waitOnPort i) := by
  simp [offerRequest, h]

/-! ### RASTER's use of the image source -/

/-- Computing RASTER's frame uses up one resize answer or none. -/
theorem afterResize_cases (img : Image) (s : State) :
    afterResize img s = s ∨ afterResize img s = s.takeResize := by
  unfold afterResize
  split
  · exact .inl rfl
  · split
    · exact .inl rfl
    · exact .inr rfl

/-! ### Every request -/

/-- What the request's frame is and what it leaves of the environment, for any request: the one place where the eight meanings are
taken apart. -/
theorem exec_eq_offerRequest (i : Instr) (s : State) :
    ∃ f taken, exec i s = offerRequest i f taken s ∧ (taken = s ∨ taken = s.takeResize) ∧
      (∀ bytes, framerFrame s.config i = some bytes → f = .ok bytes ∧ taken = s) := by
  cases i with
  | raster img =>
    exact ⟨rasterFrame img s, afterResize img s, rfl, afterResize_cases img s, by simp [framerFrame]⟩
  | reset => exact ⟨_, s, rfl, .inl rfl, by simp [framerFrame]⟩
  | mode m => exact ⟨_, s, rfl, .inl rfl, by simp [framerFrame]⟩
  | spacing n => exact ⟨_, s, rfl, .inl rfl, by simp [framerFrame]⟩
  | size w h => exact ⟨_, s, rfl, .inl rfl, by simp [framerFrame]⟩
  | text t => exact ⟨_, s, rfl, .inl rfl, by simp [framerFrame]⟩
  | feed n => exact ⟨_, s, rfl, .inl rfl, by simp [framerFrame]⟩
  | cut => exact ⟨_, s, rfl, .inl rfl, by simp [framerFrame]⟩

/-- What an Idle block does with any request: it accepts it, with the environment's answers used up. -/
theorem exec_idle_cases {i : Instr} {s t : State} (h : s.phase = .idle) (he : exec i s = .next t) :
    ∃ f taken, t = taken.accept i f ∧ (taken = s ∨ taken = s.takeResize) ∧
      (∀ bytes, framerFrame s.config i = some bytes → f = .ok bytes ∧ taken = s) := by
  obtain ⟨f, taken, h1, h2, h3⟩ := exec_eq_offerRequest i s
  rw [h1, offerRequest_idle _ _ _ _ h] at he
  cases he
  exact ⟨f, taken, rfl, h2, h3⟩

/-- A framer request offered to an Idle block. -/
theorem exec_framer_idle (i : Instr) (s : State) (bytes : List Byte) (hf : framerFrame s.config i = some bytes)
    (h : s.phase = .idle) : exec i s = .next (s.accept i (.ok bytes)) := by
  obtain ⟨f, taken, he, -, hb⟩ := exec_eq_offerRequest i s
  obtain ⟨rfl, rfl⟩ := hb bytes hf
  rw [he, offerRequest_idle _ _ _ _ h]

/-- RASTER offered to an Idle block. -/
theorem execRaster_idle (img : Image) (s : State) (h : s.phase = .idle) :
    execRaster img s = .next ((afterResize img s).accept (.raster img) (rasterFrame img s)) :=
  offerRequest_idle _ _ _ _ h

/-! ### EMIT -/

/-- EMIT: the sink lets the block wait, or it answers, by its script or freely. -/
theorem State.emit_cases (b : Byte) (rest : List Byte) (s : State) :
    (∃ es, s.sinkScript = .waits :: es ∧ s.emit b rest = { s with sinkScript := es }) ∨
    (∃ a es, s.sinkScript = .answers a :: es ∧ s.emit b rest = { s with sinkScript := es }.sinkAnswered b rest a) ∨
    (∃ a, s.sinkScript = [] ∧ s.emit b rest = { s with sinkDraws := s.sinkDraws + 1 }.sinkAnswered b rest a) := by
  unfold State.emit
  split
  · exact .inl ⟨_, ‹_›, rfl⟩
  · exact .inr (.inl ⟨_, _, ‹_›, rfl⟩)
  · exact .inr (.inr ⟨_, ‹_›, rfl⟩)

/-- A sink answer: the frame goes on, the frame is done, or the request fails. -/
theorem State.sinkAnswered_cases (b : Byte) (rest : List Byte) (a : SinkAnswer) (s : State) :
    (a = .accepted ∧ ∃ c cs, rest = c :: cs ∧
      s.sinkAnswered b rest a = (s.appendHist b).beginEmission c cs) ∨
    (a = .accepted ∧ rest = [] ∧ s.sinkAnswered b rest a = (s.appendHist b).respond .ok) ∨
    (∃ delivered, a = .failed delivered ∧ s.sinkAnswered b rest a =
      ({ s with hist := s.hist ++ if delivered then [b] else [] } : State).raiseError .transportWrite) := by
  match a, rest with
  | .accepted, [] => exact .inr (.inl ⟨rfl, rfl, rfl⟩)
  | .accepted, c :: cs => exact .inl ⟨rfl, c, cs, rfl, rfl⟩
  | .failed true, rest => exact .inr (.inr ⟨true, rfl, rfl⟩)
  | .failed false, rest =>
    refine .inr (.inr ⟨false, rfl, ?_⟩)
    simp [State.sinkAnswered, State.byteFailed]

theorem State.byteFailed_eq (b : Byte) (delivered : Bool) (s : State) :
    s.byteFailed b delivered = { s with
      hist := s.hist ++ (if delivered then [b] else []), phase := .idle, lat := none,
      response := some .transportWrite, responses := s.responses ++ [.transportWrite] } := by
  cases delivered <;> simp [State.byteFailed, State.raiseError, State.respond, State.appendHist]

theorem State.emit_failed (b : Byte) (rest : List Byte) (delivered : Bool) (events : List SinkEvent) (s : State)
    (h : s.sinkScript = .answers (.failed delivered) :: events) :
    s.emit b rest = { s with
      sinkScript := events, hist := s.hist ++ (if delivered then [b] else []), phase := .idle, lat := none,
      response := some .transportWrite, responses := s.responses ++ [.transportWrite] } := by
  simp [State.emit, h, State.sinkAnswered, State.byteFailed_eq]

theorem State.emit_accepted_cons (b c : Byte) (rest : List Byte) (events : List SinkEvent) (s : State)
    (h : s.sinkScript = .answers .accepted :: events) :
    s.emit b (c :: rest) = { s with sinkScript := events, hist := s.hist ++ [b], phase := .busy c rest } := by
  simp [State.emit, h, State.sinkAnswered, State.byteAccepted, State.appendHist, State.beginEmission]

theorem State.emit_accepted_last (b : Byte) (events : List SinkEvent) (s : State)
    (h : s.sinkScript = .answers .accepted :: events) :
    s.emit b [] = { s with
      sinkScript := events, hist := s.hist ++ [b], phase := .idle, lat := none, response := some .ok,
      responses := s.responses ++ [.ok] } := by
  simp [State.emit, h, State.sinkAnswered, State.byteAccepted, State.appendHist, State.respond]

/-! ### RESET -/

/-- The byte in flight, if any, and if it arrived. -/
theorem State.hardwareReset_eq (delivered : Bool) (s : State) :
    s.hardwareReset delivered = { s with
      phase := .idle, lat := none, response := none, profile := s.config.profile,
      hist := s.hist ++ (match s.phase with
        | .idle => []
        | .busy b _ => if delivered then [b] else []) } := by
  cases h : s.phase with
  | idle => simp [State.hardwareReset, State.resolveInFlight, h]
  | busy b rest => cases delivered <;> simp [State.hardwareReset, State.resolveInFlight, h, State.appendHist]

theorem State.sampleReset_nil (s : State) (h : s.resetInput = []) : s.sampleReset = (.released, s) := by
  simp [State.sampleReset, h]

theorem State.sampleReset_cons (s : State) (l : ResetLevel) (ls : List ResetLevel) (h : s.resetInput = l :: ls) :
    s.sampleReset = (l, { s with resetInput := ls }) := by
  simp [State.sampleReset, h]

/-- Sampling the reset input changes nothing but what is left of it. -/
theorem State.sampleReset_cases (s : State) :
    (s.resetInput = [] ∧ s.sampleReset = (.released, s)) ∨
    ∃ l ls, s.resetInput = l :: ls ∧ s.sampleReset = (l, { s with resetInput := ls }) := by
  cases h : s.resetInput with
  | nil => exact .inl ⟨rfl, s.sampleReset_nil h⟩
  | cons l ls => exact .inr ⟨l, ls, rfl, s.sampleReset_cons l ls h⟩

/-! ### The request port -/

/-- A record is admitted exactly when it decodes to a well-formed request within the port's bounds. -/
theorem admitRequest_ok_iff (cfg : Config) (r : Request) (i : Instr) :
    admitRequest cfg r = .ok i ↔ decode r = .ok i ∧ Presentable cfg i := by
  unfold admitRequest Presentable
  constructor
  · intro h
    split at h
    · cases h
    · split at h
      · split at h
        · cases h
        · cases h; simp_all
      · cases h
  · rintro ⟨hd, hw, hp⟩
    simp [hd, hw, hp]

/-! ### One step -/

theorem step_released (s t : State) (h : profileLegal s.profile = true) (hr : s.sampleReset = (.released, t)) :
    step s = runStep t := by
  simp [step, h, hr]

theorem step_asserted (s t : State) (delivered : Bool) (h : profileLegal s.profile = true)
    (hr : s.sampleReset = (.asserted delivered, t)) : step s = .next (t.hardwareReset delivered) := by
  simp [step, h, hr]

/-- With a legal profile and no reset to come, a step is the step of R30. -/
theorem step_no_reset (s : State) (h : profileLegal s.profile = true) (hr : s.resetInput = []) :
    step s = runStep s :=
  step_released s s h (s.sampleReset_nil hr)

theorem runStep_busy (s : State) (b : Byte) (rest : List Byte) (h : s.phase = .busy b rest) :
    runStep s = .next (s.emit b rest) := by
  simp [runStep, h]

/-- An Idle block with an admitted request on the port runs it. -/
theorem runStep_offer (s : State) (r : Request) (rs : List Request) (i : Instr) (h : s.phase = .idle)
    (ho : s.offers = r :: rs) (ha : admitRequest s.config r = .ok i) : runStep s = exec i s.takeOffer := by
  simp [runStep, h, idleStep, ho, ha]

/-- Everything a step that answers a next state can have done: a reset, asserted; or, with the reset input released, a wait for a request,
the acceptance of the first offer, or an EMIT. `u` is the state once a released level, if there is one, is used up. -/
theorem step_cases {s t : State} (h : step s = .next t) :
    profileLegal s.profile = true ∧
    ((∃ delivered ls, s.resetInput = .asserted delivered :: ls ∧
        t = State.hardwareReset delivered { s with resetInput := ls }) ∨
     ∃ u, (s.resetInput = [] ∧ u = s ∨ ∃ ls, s.resetInput = .released :: ls ∧ u = { s with resetInput := ls }) ∧
      ((u.phase = .idle ∧ u.offers = [] ∧ t = u) ∨
       (∃ r rs i, u.phase = .idle ∧ u.offers = r :: rs ∧ decode r = .ok i ∧ Presentable u.config i ∧
          exec i u.takeOffer = .next t) ∨
       (∃ b rest, u.phase = .busy b rest ∧ t = u.emit b rest))) := by
  unfold step at h
  split at h
  next hl =>
    refine ⟨hl, ?_⟩
    have run : ∀ u : State, runStep u = .next t →
        ((u.phase = .idle ∧ u.offers = [] ∧ t = u) ∨
         (∃ r rs i, u.phase = .idle ∧ u.offers = r :: rs ∧ decode r = .ok i ∧ Presentable u.config i ∧
            exec i u.takeOffer = .next t) ∨
         (∃ b rest, u.phase = .busy b rest ∧ t = u.emit b rest)) := by
      intro u hu
      unfold runStep at hu
      split at hu
      next hp =>
        unfold idleStep at hu
        split at hu
        next ho => cases hu; exact .inl ⟨hp, ho, rfl⟩
        next r rs ho =>
          split at hu
          · cases hu
          next i ha =>
            obtain ⟨hd, hpr⟩ := (admitRequest_ok_iff _ _ _).mp ha
            exact .inr (.inl ⟨r, rs, i, hp, ho, hd, hpr, hu⟩)
      next b rest hp => cases hu; exact .inr (.inr ⟨b, rest, hp, rfl⟩)
    obtain ⟨hin, hs⟩ | ⟨l, ls, hin, hs⟩ := s.sampleReset_cases
    · rw [hs] at h
      exact .inr ⟨s, .inl ⟨hin, rfl⟩, run s h⟩
    · rw [hs] at h
      cases l with
      | asserted d => cases h; exact .inl ⟨d, ls, hin, rfl⟩
      | released => exact .inr ⟨_, .inr ⟨ls, hin, rfl⟩, run _ h⟩
  next => cases h

end Sys2Proof.Machine
end

