-- ==== Sys2Proof/Laws/Encoding.lean ====
section
/-! SUPPORT. One lemma per piece of the two encodings: byte and count arguments, 16-bit fields, text lines, raster bodies. -/

namespace Sys2Proof

/-! ### Arguments of a request record -/

theorem decodeByte_toNat (b : Byte) : decodeByte b.toNat = .ok b := by
  have hb := b.isLt
  rw [decodeByte, if_pos (by omega)]
  simp

theorem decodeCount_natCast (n : Nat) : decodeCount n = .ok n := by
  simp [decodeCount]

/-- A byte argument that is admitted is the byte's value. -/
theorem decodeByte_ok {v : Int} {b : Byte} (h : decodeByte v = .ok b) : v = b.toNat := by
  unfold decodeByte at h
  split at h
  · cases h
    rw [BitVec.toNat_ofInt]
    omega
  · cases h

theorem decodeCount_ok {v : Int} {n : Nat} (h : decodeCount v = .ok n) : v = n := by
  unfold decodeCount at h
  split at h
  · cases h
    omega
  · cases h

theorem except_map_ok {ε α β : Type} {f : α → β} {x : Except ε α} {b : β} (h : x.map f = .ok b) :
    ∃ a, x = .ok a ∧ b = f a := by
  cases x with
  | error e => cases h
  | ok a => cases h; exact ⟨a, rfl, rfl⟩

/-! ### 16-bit fields -/

@[simp] theorem word16_lowByte_highByte (w : BitVec 16) : word16 (lowByte w) (highByte w) = w := by
  have hw := w.isLt
  apply BitVec.eq_of_toNat_eq
  simp only [word16, lowByte, highByte, BitVec.toNat_ofNat]
  omega

/-- The low byte of a count masked to 16 bits (R90). -/
theorem lowByte_ofNat (n : Nat) : lowByte (BitVec.ofNat 16 n) = BitVec.ofNat 8 (n &&& 0xFF) := by
  apply BitVec.eq_of_toNat_eq
  have h : n &&& 0xFF = n % 256 := Nat.and_two_pow_sub_one_eq_mod n 8
  simp only [lowByte, BitVec.toNat_ofNat, h]
  omega

/-- The high byte of a count masked to 16 bits (R90). -/
theorem highByte_ofNat (n : Nat) : highByte (BitVec.ofNat 16 n) = BitVec.ofNat 8 ((n >>> 8) &&& 0xFF) := by
  apply BitVec.eq_of_toNat_eq
  have h : (n >>> 8) &&& 0xFF = (n >>> 8) % 256 := Nat.and_two_pow_sub_one_eq_mod _ 8
  rw [h]
  simp only [highByte, BitVec.toNat_ofNat, Nat.shiftRight_eq_div_pow]
  omega

/-! ### Text lines and raster bodies -/

/-- A text line without `0A` inside, closed by `0D 0A`, gives back its bytes and what follows. -/
theorem splitTextLine_closed (bytes after : List Byte) (h : ∀ b ∈ bytes, b ≠ 0x0A) (acc : List Byte) :
    splitTextLine acc (bytes ++ 0x0D :: 0x0A :: after) = .ok (acc.reverse ++ bytes, after) := by
  induction bytes generalizing acc with
  | nil => simp [splitTextLine]
  | cons b bs ih =>
    have hb := h b (by simp)
    simp only [List.cons_append, splitTextLine, if_neg hb]
    rw [ih (fun x hx => h x (by simp [hx]))]
    simp

theorem decodeRasterBody_closed (rb rc : BitVec 16) (payload after : List Byte)
    (h : payload.length = rb.toNat * rc.toNat) :
    decodeRasterBody rb rc (payload ++ 0x0A :: after) = .ok (.gsVZero rb rc payload, after) := by
  simp [decodeRasterBody, ← h]

end Sys2Proof
end

