-- ==== Sys2Proof/Laws/PerInstr.lean ====
section
/-! SUPPORT. What is said of every request, request by request: R6, "The model itself places no bound", so the port of the
default parameters admits each of them whatever its operands. -/

/-- The default port refuses no operand of the request (R6). -/
def Sys2Proof.Laws.Unbounded.Statement (i : Sys2Proof.Instr) : Prop :=
  Sys2Proof.Machine.portRefusal Sys2Proof.Config.default i = none

theorem Sys2Proof.Laws.Unbounded.reset : Sys2Proof.Laws.Unbounded.Statement .reset := rfl

theorem Sys2Proof.Laws.Unbounded.mode (m : Sys2Proof.Byte) : Sys2Proof.Laws.Unbounded.Statement (.mode m) := rfl

theorem Sys2Proof.Laws.Unbounded.spacing (n : Sys2Proof.Byte) : Sys2Proof.Laws.Unbounded.Statement (.spacing n) := rfl

theorem Sys2Proof.Laws.Unbounded.size (w h : Int) : Sys2Proof.Laws.Unbounded.Statement (.size w h) := rfl

theorem Sys2Proof.Laws.Unbounded.text (t : List Nat) : Sys2Proof.Laws.Unbounded.Statement (.text t) := rfl

theorem Sys2Proof.Laws.Unbounded.feed (n : Nat) : Sys2Proof.Laws.Unbounded.Statement (.feed n) := rfl

theorem Sys2Proof.Laws.Unbounded.cut : Sys2Proof.Laws.Unbounded.Statement .cut := rfl

theorem Sys2Proof.Laws.Unbounded.raster (img : Sys2Proof.Image) : Sys2Proof.Laws.Unbounded.Statement (.raster img) := rfl
end

