-- ==== Sys2Proof/Laws/Raster.lean ====
section
/-! SUPPORT. RASTER's pieces said once: the header as two 16-bit fields, the frame as one raster command, the checks of the plan,
the bits of a packed byte. -/

namespace Sys2Proof.Machine

/-! ### Header and frame -/

theorem rasterHeader_eq (hb hr : Nat) :
    rasterHeader hb hr = [0x1D, 0x76, 0x30, 0x00,
      lowByte (BitVec.ofNat 16 hb), highByte (BitVec.ofNat 16 hb),
      lowByte (BitVec.ofNat 16 hr), highByte (BitVec.ofNat 16 hr)] := by
  simp [rasterHeader, lowByte_ofNat, highByte_ofNat]

/-- RASTER's frame is the raster command with its header counts masked to 16 bits (R86, R90). -/
theorem planFrame_eq_encodeFrame (px : Nat → Nat → Pixel) (plan : RasterPlan) :
    planFrame px plan = encodeFrame (.gsVZero (BitVec.ofNat 16 plan.counts.headerBytes)
      (BitVec.ofNat 16 plan.counts.headerRows)
      (rasterPayload px plan.targetWidth plan.counts.payloadBytes plan.counts.payloadRows)) := by
  simp [planFrame, rasterHeader_eq, encodeFrame]

theorem planFrame_eq_cons (px : Nat → Nat → Pixel) (plan : RasterPlan) :
    planFrame px plan = 0x1D :: ((rasterHeader plan.counts.headerBytes plan.counts.headerRows).tail ++
      rasterPayload px plan.targetWidth plan.counts.payloadBytes plan.counts.payloadRows ++ [0x0A]) := rfl

/-! ### The plan -/

/-- The outcomes of RASTER's checks, in their order (R208). -/
theorem rasterPlan_cases (cfg : Config) (p : Profile) (w h : Nat) :
    ((w = 0 ∨ h = 0) ∧ rasterPlan cfg p w h = .error .invalidImage) ∨
    (0 < w ∧ 0 < h ∧ (rasterPlan cfg p w h = .error .scaleUnderflow ∨ rasterPlan cfg p w h = .error .headerOverflow ∨
      ∃ plan, rasterPlan cfg p w h = .ok plan ∧ 0 < plan.targetWidth ∧ 0 < plan.targetHeight)) := by
  by_cases hz : w = 0 ∨ h = 0
  · exact .inl ⟨hz, by simp [rasterPlan, hz]⟩
  · refine .inr ⟨by omega, by omega, ?_⟩
    simp only [rasterPlan, if_neg hz]
    split
    · exact .inl rfl
    next hu =>
      split
      · exact .inr (.inl rfl)
      · refine .inr (.inr ⟨_, rfl, ?_⟩)
        dsimp only
        omega

/-- The counts a plan may have: the payload is never larger than the resize target (R165). -/
theorem rasterCounts_payload_le {policy : HeaderOverflow} {bpr h1 : Nat} {k : RasterCounts}
    (h : rasterCounts policy bpr h1 = some k) : k.payloadBytes ≤ bpr ∧ k.payloadRows ≤ h1 := by
  unfold rasterCounts at h
  split at h
  · cases h; exact ⟨le_rfl, le_rfl⟩
  · split at h
    · cases h
    · cases h; exact ⟨le_rfl, le_rfl⟩
  · cases h; exact ⟨min_le_left _ _, min_le_left _ _⟩

/-! ### The frames a request can have -/

theorem frameOf_framer {cfg : Config} {i : Instr} {bytes : List Byte} (h : framerFrame cfg i = some bytes)
    (p : Profile) (f : FrameResult) : FrameOf cfg p i f ↔ f = .ok bytes := by
  cases i <;> simp_all [FrameOf, framerFrame]

theorem frameOf_raster_error {cfg : Config} {p : Profile} {img : Image} {e : Status}
    (h : rasterPlan cfg p img.width img.height = .error e) (f : FrameResult) :
    FrameOf cfg p (.raster img) f ↔ f = .error e := by
  simp [FrameOf, h]

theorem frameOf_raster_ok {cfg : Config} {p : Profile} {img : Image} {plan : RasterPlan}
    (h : rasterPlan cfg p img.width img.height = .ok plan) (f : FrameResult) :
    FrameOf cfg p (.raster img) f ↔ ∃ resized : Nat → Nat → Pixel,
      f = .ok (planFrame (fun x y => if bypassesResize img plan then pixelRead img x y else resized x y) plan) := by
  simp [FrameOf, h]

/-- Accepted by an Idle block, a request has one of its frames. -/
theorem exec_idle_frameOf {i : Instr} {s t : State} (h : s.phase = .idle) (he : exec i s = .next t) :
    ∃ f taken, t = taken.accept i f ∧ (taken = s ∨ taken = s.takeResize) ∧ FrameOf s.config s.profile i f := by
  have framer : ∀ bytes, framerFrame s.config i = some bytes →
      ∃ f taken, t = taken.accept i f ∧ (taken = s ∨ taken = s.takeResize) ∧ FrameOf s.config s.profile i f := by
    intro bytes hf
    rw [exec_framer_idle i s bytes hf h] at he
    cases he
    exact ⟨.ok bytes, s, rfl, .inl rfl, (frameOf_framer hf _ _).mpr rfl⟩
  cases i with
  | raster img =>
    change execRaster img s = _ at he
    rw [execRaster_idle _ _ h] at he
    cases he
    refine ⟨_, _, rfl, afterResize_cases img s, ?_⟩
    cases hp : rasterPlan s.config s.profile img.width img.height with
    | error e => rw [frameOf_raster_error hp]; simp [rasterFrame, hp]
    | ok plan =>
      rw [frameOf_raster_ok hp]
      exact ⟨resizedRead s img plan.targetWidth plan.targetHeight, by simp only [rasterFrame, hp]; rfl⟩
  | reset => exact framer _ rfl
  | mode m => exact framer _ rfl
  | spacing n => exact framer _ rfl
  | size w h => exact framer _ rfl
  | text t => exact framer _ rfl
  | feed n => exact framer _ rfl
  | cut => exact framer _ rfl

/-! ### Packing -/

theorem packedPixel_inside (px : Nat → Nat → Pixel) (wr x y : Nat) (h : x < wr) : packedPixel px wr x y = px x y :=
  if_pos h

theorem packedPixel_beyond (px : Nat → Nat → Pixel) (wr x y : Nat) (h : ¬ x < wr) : packedPixel px wr x y = .white :=
  if_neg h

/-- The bit of pixel a at the place of pixel b: set when they are one pixel and it is BLACK. -/
theorem pixelBit_getLsbD (p : Pixel) (a b : Fin 8) :
    (pixelBit p a).getLsbD (7 - b) = decide (a = b ∧ p = .black) := by
  cases p
  · revert a b; decide
  · simp [pixelBit]

/-- A packed byte as the union of its eight pixel bits. -/
theorem packByte_eq (px : Nat → Nat → Pixel) (wr j y : Nat) :
    packByte px wr j y =
      0 ||| pixelBit (packedPixel px wr (8 * j + 0) y) 0 ||| pixelBit (packedPixel px wr (8 * j + 1) y) 1
        ||| pixelBit (packedPixel px wr (8 * j + 2) y) 2 ||| pixelBit (packedPixel px wr (8 * j + 3) y) 3
        ||| pixelBit (packedPixel px wr (8 * j + 4) y) 4 ||| pixelBit (packedPixel px wr (8 * j + 5) y) 5
        ||| pixelBit (packedPixel px wr (8 * j + 6) y) 6 ||| pixelBit (packedPixel px wr (8 * j + 7) y) 7 := rfl

end Sys2Proof.Machine
end

