-- ==== Sys2Proof/Laws/Run.lean ====
section
/-! SUPPORT. Runs of several steps: one step, then the rest. -/

namespace Sys2Proof.Machine

theorem runSteps_zero (s : State) : runSteps 0 s = .next s := rfl

/-- A run whose first step answers a next state goes on from there. -/
theorem runSteps_succ {s t : State} (n : Nat) (h : step s = .next t) : runSteps (n + 1) s = runSteps n t := by
  simp [runSteps, h]

theorem runSteps_refused {s : State} (n : Nat) {r : Refusal} (h : step s = .refused r) :
    runSteps (n + 1) s = .refused r := by
  simp [runSteps, h]

/-- A run of m + n steps is a run of n from where m steps lead. -/
theorem runSteps_add {m n : Nat} {s t : State} (h : runSteps m s = .next t) : runSteps (m + n) s = runSteps n t := by
  induction m generalizing s with
  | zero => cases h; rw [Nat.zero_add]
  | succ m ih =>
    cases hs : step s with
    | next u =>
      rw [runSteps_succ m hs] at h
      rw [Nat.succ_add, runSteps_succ (m + n) hs]
      exact ih h
    | fault f => cases f
    | refused r =>
      rw [runSteps_refused m hs] at h
      cases h

/-- The host's own run of the machine is this one. -/
theorem core_run_eq_runSteps (n : Nat) (s : State) : core.run n s = runSteps n s := by
  induction n generalizing s with
  | zero => rfl
  | succ n ih =>
    simp only [Host.Core.run, runSteps]
    cases hs : step s with
    | next t => rw [show core.step s = .next t from hs]; exact ih t
    | fault f => cases f
    | refused r => rw [show core.step s = .refused r from hs]; rfl

end Sys2Proof.Machine
end

