-- ==== Sys2Proof/Laws/Scaling.lean ====
section
/-! SUPPORT. The spec of each rounding function, which later proofs cite instead of its computation: `RoundQ` (R160), `fl` and `RNE`
of R171. -/

namespace Sys2Proof.Machine

/-! ### RoundQ -/

/-- RoundQ lies within one half of the quotient, and on a tie is even. -/
theorem roundQ_spec (n d : Nat) (hd : 0 < d) :
    2 * (roundQ n d * d) ≤ 2 * n + d ∧ 2 * n ≤ 2 * (roundQ n d * d) + d ∧
      ((2 * (roundQ n d * d) = 2 * n + d ∨ 2 * n = 2 * (roundQ n d * d) + d) → roundQ n d % 2 = 0) := by
  have hn := Nat.div_add_mod n d
  have hr := Nat.mod_lt n hd
  unfold roundQ
  simp only
  generalize n / d = q at *
  generalize n % d = r at *
  rw [Nat.mul_comm d q] at hn
  have hs : (q + 1) * d = q * d + d := Nat.succ_mul q d
  split
  · omega
  · split
    · rw [hs]; omega
    · obtain he | he := Nat.mod_two_eq_zero_or_one q
      · rw [he, Nat.add_zero]; omega
      · rw [he, hs]; omega

/-- RoundQ of a multiple is exact. -/
theorem roundQ_mul (q d : Nat) (hd : 0 < d) : roundQ (q * d) d = q := by
  simp [roundQ, Nat.mul_div_cancel _ hd, hd]

/-- RoundQ against a quotient that is given as a rational: within one half of it, and even on a tie. -/
theorem roundQ_near {n d : Nat} (hd : 0 < d) {v : ℚ} (hv : v * d = n) :
    |v - roundQ n d| ≤ 1 / 2 ∧ (|v - roundQ n d| = 1 / 2 → roundQ n d % 2 = 0) := by
  obtain ⟨h1, h2, h3⟩ := roundQ_spec n d hd
  have hd' : (0 : ℚ) < d := by exact_mod_cast hd
  have c1 : 2 * ((roundQ n d : ℚ) * d) ≤ 2 * n + d := by exact_mod_cast h1
  have c2 : 2 * (n : ℚ) ≤ 2 * ((roundQ n d : ℚ) * d) + d := by exact_mod_cast h2
  rw [← hv] at c1 c2
  refine ⟨abs_le.mpr ⟨?_, ?_⟩, fun he => h3 ?_⟩
  · by_contra hc; nlinarith
  · by_contra hc; nlinarith
  · rcases (abs_eq (by norm_num)).mp he with he | he
    · right
      have : (2 : ℚ) * n = 2 * ((roundQ n d : ℚ) * d) + d := by rw [← hv, show v = roundQ n d + 1 / 2 by linarith]; ring
      exact_mod_cast this
    · left
      have : 2 * ((roundQ n d : ℚ) * d) = 2 * n + d := by rw [← hv, show v = roundQ n d - 1 / 2 by linarith]; ring
      exact_mod_cast this

/-- A number within one half of v, even if at one half, is a nearest one, ties to even. -/
theorem nearestEven_of_near {v : ℚ} {r : Nat} (h : |v - r| ≤ 1 / 2) (he : |v - r| = 1 / 2 → r % 2 = 0) : NearestEven v r := by
  have gap : ∀ m : Nat, m ≠ r → (1 : ℚ) ≤ |v - r| + |v - m| := by
    intro m hm
    have h1 : (1 : ℚ) ≤ |(m : ℚ) - r| := by
      rcases Nat.lt_or_gt_of_ne hm with hl | hl
      · have : (m : ℚ) + 1 ≤ r := by exact_mod_cast hl
        rw [abs_sub_comm]; exact le_trans (by linarith) (le_abs_self _)
      · have : (r : ℚ) + 1 ≤ m := by exact_mod_cast hl
        exact le_trans (by linarith) (le_abs_self _)
    calc (1 : ℚ) ≤ |(m : ℚ) - r| := h1
      _ = |(v - r) - (v - m)| := by ring_nf
      _ ≤ |v - r| + |v - m| := abs_sub _ _
  refine ⟨fun m => ?_, fun m hm hne => he ?_⟩
  · rcases eq_or_ne m r with rfl | hne
    · exact le_rfl
    · linarith [gap m hne]
  · linarith [gap m hne]

/-! ### Binary64 -/

/-- A power of two by the two natural exponents the model computes with. -/
theorem zpow_mul_pow_toNat_neg (k : Int) : (2 : ℚ) ^ k * 2 ^ (-k).toNat = 2 ^ k.toNat := by
  rw [← zpow_natCast, ← zpow_natCast, ← zpow_add₀ (by norm_num)]
  congr 1
  omega

/-- The format's bound 2^1024, split. -/
theorem two_pow_1024 (a b : Nat) (h : 1024 = a + b) : (2 : Nat) ^ 1024 = 2 ^ a * 2 ^ b := by
  rw [← Nat.pow_add, h]

theorem mul_two_pow_lt {a b c m k : Nat} (hm : m ≤ 2 ^ a) (hk : k ≤ b) (hc : a + b < c) : m * 2 ^ k < 2 ^ c :=
  calc m * 2 ^ k ≤ 2 ^ a * 2 ^ b := Nat.mul_le_mul hm (Nat.pow_le_pow_right Nat.two_pos hk)
    _ = 2 ^ (a + b) := (Nat.pow_add 2 a b).symm
    _ < 2 ^ c := Nat.pow_lt_pow_right (by norm_num) hc

theorem two_pow_le_mul {a b c m k : Nat} (hm : 2 ^ a ≤ m) (hk : b ≤ k) (hc : c = a + b) : 2 ^ c ≤ m * 2 ^ k :=
  calc 2 ^ c = 2 ^ a * 2 ^ b := by rw [hc, Nat.pow_add]
    _ ≤ m * 2 ^ k := Nat.mul_le_mul hm (Nat.pow_le_pow_right Nat.two_pos hk)

/-- The integer powers beside the bound, and the bound, by one unit: half of the quantum of the largest numbers. -/
theorem top_by_unit : (2 : ℚ) ^ (970 : Int) = 2 ^ 970 ∧ (2 : ℚ) ^ (971 : Int) = 2 * 2 ^ 970 ∧
    (2 : ℚ) ^ (972 : Int) = 4 * 2 ^ 970 ∧ (2 : ℚ) ^ 1024 = 2 ^ 54 * 2 ^ 970 := by
  refine ⟨zpow_natCast 2 970, ?_, ?_, by rw [← pow_add]⟩
  · rw [show (971 : Int) = 1 + (970 : Nat) from rfl, zpow_add₀ (by norm_num), zpow_natCast, zpow_one]
  · rw [show (972 : Int) = (2 : Nat) + (970 : Nat) from rfl, zpow_add₀ (by norm_num), zpow_natCast, zpow_natCast]
    norm_num

/-- `ratioExponent n d` is the exponent of n/d. -/
theorem ratioExponent_spec {n d : Nat} (hn : n ≠ 0) (hd : d ≠ 0) :
    (2 : ℚ) ^ ratioExponent n d * d ≤ n ∧ (n : ℚ) < 2 ^ (ratioExponent n d + 1) * d := by
  have two : (2 : ℚ) ≠ 0 := by norm_num
  have n1 : (2 : ℚ) ^ (n.log2 : Int) ≤ n := by exact_mod_cast Nat.log2_self_le hn
  have n2 : (n : ℚ) < 2 ^ ((n.log2 : Int) + 1) := by exact_mod_cast Nat.lt_log2_self (n := n)
  have d1 : (2 : ℚ) ^ (d.log2 : Int) ≤ d := by exact_mod_cast Nat.log2_self_le hd
  have d2 : (d : ℚ) < 2 ^ ((d.log2 : Int) + 1) := by exact_mod_cast Nat.lt_log2_self (n := d)
  set k : Int := (n.log2 : Int) - (d.log2 : Int) with hk
  have kpos : (0 : ℚ) < 2 ^ (-k).toNat := by positivity
  have cond : d * 2 ^ k.toNat ≤ n * 2 ^ (-k).toNat ↔ (2 : ℚ) ^ k * d ≤ n := by
    rw [← mul_le_mul_iff_left₀ kpos, mul_right_comm, zpow_mul_pow_toNat_neg, mul_comm (2 ^ k.toNat : ℚ)]
    exact_mod_cast Iff.rfl
  have up : (n : ℚ) < 2 ^ (k + 1) * d := by
    calc (n : ℚ) < 2 ^ ((n.log2 : Int) + 1) := n2
      _ = 2 ^ (k + 1) * 2 ^ (d.log2 : Int) := by rw [← zpow_add₀ two]; congr 1; omega
      _ ≤ 2 ^ (k + 1) * d := by gcongr
  have down : (2 : ℚ) ^ (k - 1) * d ≤ n := by
    calc (2 : ℚ) ^ (k - 1) * d ≤ 2 ^ (k - 1) * 2 ^ ((d.log2 : Int) + 1) := by gcongr
      _ = 2 ^ (n.log2 : Int) := by rw [← zpow_add₀ two]; congr 1; omega
      _ ≤ n := n1
  unfold ratioExponent
  simp only [← hk]
  split
  next h => exact ⟨cond.mp h, up⟩
  next h =>
    rw [cond, not_le] at h
    exact ⟨down, by rw [sub_add_cancel]; exact h⟩

/-- The rounding of v at the quantum 2^q that its binade has: `m` quanta, nearest, ties to even. -/
structure RoundedAt (v : ℚ) (q : Int) (m : Nat) : Prop where
  near : |v / 2 ^ q - m| ≤ 1 / 2
  tie_even : |v / 2 ^ q - m| = 1 / 2 → m % 2 = 0
  least : -1074 ≤ q
  below : v / 2 ^ q < 2 ^ 53
  normal : q = -1074 ∨ 2 ^ 52 ≤ v / 2 ^ q

/-- What `roundToBinary64` rounds to before it looks at the format's bound. -/
theorem roundedAt_ratio {n d : Nat} (hn : n ≠ 0) (hd : d ≠ 0) :
    let q := max (ratioExponent n d - 52) (-1074)
    RoundedAt ((n : ℚ) / d) q (roundQ (n * 2 ^ (-q).toNat) (d * 2 ^ q.toNat)) := by
  intro q
  obtain ⟨e1, e2⟩ := ratioExponent_spec hn hd
  have two : (2 : ℚ) ≠ 0 := by norm_num
  have hd0 : 0 < d := Nat.pos_of_ne_zero hd
  have hdq : (0 : ℚ) < d := by exact_mod_cast hd0
  have hqp : (0 : ℚ) < 2 ^ q := by positivity
  rw [← le_div_iff₀ hdq] at e1
  rw [← div_lt_iff₀ hdq] at e2
  have hv : (n : ℚ) / d / 2 ^ q * ((d * 2 ^ q.toNat : Nat) : ℚ) = ((n * 2 ^ (-q).toNat : Nat) : ℚ) := by
    push_cast
    rw [← zpow_mul_pow_toNat_neg q]
    field_simp
  obtain ⟨h1, h2⟩ := roundQ_near (Nat.mul_pos hd0 (by positivity)) hv
  refine ⟨h1, h2, le_max_right _ _, ?_, ?_⟩
  · rw [div_lt_iff₀ hqp]
    calc (n : ℚ) / d < 2 ^ (ratioExponent n d + 1) := e2
      _ ≤ 2 ^ (53 + q) := zpow_le_zpow_right₀ (by norm_num) (by omega)
      _ = 2 ^ 53 * 2 ^ q := by rw [zpow_add₀ two]; norm_cast
  · rcases max_choice (ratioExponent n d - 52) (-1074) with h | h
    · right
      rw [le_div_iff₀ hqp]
      calc (2 : ℚ) ^ 52 * 2 ^ q = 2 ^ (52 + q) := by rw [zpow_add₀ two]; norm_cast
        _ = 2 ^ ratioExponent n d := by congr 1; omega
        _ ≤ n / d := e1
    · exact .inl h

/-- At its own quantum or above it, a binary64 number is a whole number of quanta; below, it is short of v by more than the
least number of the binade is. -/
theorem RoundedAt.nearest {v : ℚ} {q : Int} {m : Nat} (h : RoundedAt v q m) {y : Binary64} (hy : IsBinary64 y) :
    |v - m * 2 ^ q| ≤ |v - binary64Value y| ∧
    (|v - m * 2 ^ q| = |v - binary64Value y| → binary64Value y ≠ m * 2 ^ q → m % 2 = 0) := by
  have two : (2 : ℚ) ≠ 0 := by norm_num
  have hqp : (0 : ℚ) < 2 ^ q := by positivity
  obtain ⟨hn, ht⟩ := nearestEven_of_near h.near h.tie_even
  have scale : ∀ k : Nat, |v - k * 2 ^ q| = |v / 2 ^ q - k| * 2 ^ q := by
    intro k
    rw [← abs_of_pos hqp, ← abs_mul, abs_of_pos hqp]
    congr 1
    field_simp
  have whole : ∀ k : Nat, |v - m * 2 ^ q| ≤ |v - k * 2 ^ q| := by
    intro k
    rw [scale, scale]
    exact mul_le_mul_of_nonneg_right (hn k) hqp.le
  obtain ⟨y1, y2, -, -⟩ := hy
  rcases le_or_gt q y.exp with hle | hlt
  · have hk : binary64Value y = ((y.mant * 2 ^ (y.exp - q).toNat : Nat) : ℚ) * 2 ^ q := by
      unfold binary64Value
      push_cast
      rw [mul_assoc, ← zpow_natCast, ← zpow_add₀ two]
      congr 2
      omega
    rw [hk]
    refine ⟨whole _, fun he hne => ht (y.mant * 2 ^ (y.exp - q).toNat) ?_ (fun h' => hne (by rw [h']))⟩
    rw [scale, scale] at he
    exact mul_right_cancel₀ hqp.ne' he
  · have hlow : (2 : ℚ) ^ 52 * 2 ^ q ≤ v := by
      rcases h.normal with hq | hq
      · omega
      · exact (le_div_iff₀ hqp).mp hq
    have hylt : binary64Value y < 2 ^ 52 * 2 ^ q := by
      calc binary64Value y < 2 ^ 53 * 2 ^ y.exp := by
            unfold binary64Value
            gcongr
            exact_mod_cast y1
        _ ≤ 2 ^ 53 * 2 ^ (q - 1) :=
            mul_le_mul_of_nonneg_left (zpow_le_zpow_right₀ (by norm_num) (by omega)) (by positivity)
        _ = 2 ^ 52 * 2 ^ q := by rw [zpow_sub₀ two]; ring
    have hw := whole (2 ^ 52)
    rw [Nat.cast_pow, Nat.cast_ofNat] at hw
    have hlt' : |v - m * 2 ^ q| < |v - binary64Value y| := by
      rw [abs_of_nonneg (show 0 ≤ v - 2 ^ 52 * 2 ^ q by linarith)] at hw
      exact lt_of_le_of_lt hw (lt_of_lt_of_le (by linarith) (le_abs_self _))
    exact ⟨hlt'.le, fun he => absurd he hlt'.ne⟩

/-- The bounds of the significand. -/
theorem RoundedAt.mant_bounds {v : ℚ} {q : Int} {m : Nat} (h : RoundedAt v q m) :
    m ≤ 2 ^ 53 ∧ (q = -1074 ∨ 2 ^ 52 ≤ m) := by
  obtain ⟨a1, a2⟩ := abs_le.mp h.near
  have hb := h.below
  refine ⟨?_, h.normal.imp_right fun hn => ?_⟩
  · have : (m : ℚ) < ((2 ^ 53 + 1 : Nat) : ℚ) := by push_cast; linarith
    have : m < 2 ^ 53 + 1 := by exact_mod_cast this
    omega
  · have : ((2 ^ 52 : Nat) : ℚ) < ((m + 1 : Nat) : ℚ) := by push_cast; linarith
    have : 2 ^ 52 < m + 1 := by exact_mod_cast this
    omega

/-- m quanta reach 2^1024 exactly where v reaches the midpoint below it. -/
theorem RoundedAt.overflow_iff {v : ℚ} {q : Int} {m : Nat} (h : RoundedAt v q m) :
    2 ^ 1024 ≤ m * 2 ^ q.toNat ↔ (2 : ℚ) ^ 1024 - 2 ^ 970 ≤ v := by
  have hqp : (0 : ℚ) < 2 ^ q := by positivity
  obtain ⟨a1, a2⟩ := abs_le.mp h.near
  obtain ⟨m1, m2⟩ := h.mant_bounds
  obtain ⟨u0, u1, u2, u3⟩ := top_by_unit
  have unit : (0 : ℚ) < 2 ^ 970 := by positivity
  have top : (2 : ℚ) ^ 1024 - 2 ^ 970 = (2 ^ 53 - 1 / 2) * 2 ^ (971 : Int) := by
    rw [u1, u3]
    generalize (2 : ℚ) ^ 970 = u
    ring
  rw [top]
  rcases lt_trichotomy q 971 with hq | rfl | hq
  · have e1 : m * 2 ^ q.toNat < 2 ^ 1024 := mul_two_pow_lt (b := 970) m1 (by omega) (by norm_num)
    have e2 : v < (2 ^ 53 - 1 / 2) * 2 ^ (971 : Int) := by
      calc v < 2 ^ 53 * 2 ^ q := (div_lt_iff₀ hqp).mp h.below
        _ ≤ 2 ^ 53 * 2 ^ (970 : Int) :=
            mul_le_mul_of_nonneg_left (zpow_le_zpow_right₀ (by norm_num) (by omega)) (by positivity)
        _ < (2 ^ 53 - 1 / 2) * 2 ^ (971 : Int) := by
            rw [u0, u1]
            generalize (2 : ℚ) ^ 970 = u at unit ⊢
            linarith only [unit]
    exact ⟨fun hc => absurd hc (not_le.mpr e1), fun hc => absurd hc (not_le.mpr e2)⟩
  · have e1 : 2 ^ 1024 ≤ m * 2 ^ (971 : Int).toNat ↔ 2 ^ 53 ≤ m := by
      rw [two_pow_1024 53 971 rfl, show (971 : Int).toNat = 971 from rfl]
      exact Nat.mul_le_mul_right_iff (by positivity)
    rw [e1, ← le_div_iff₀ hqp]
    constructor
    · intro hm
      have : ((2 ^ 53 : Nat) : ℚ) ≤ m := by exact_mod_cast hm
      push_cast at this
      linarith
    · intro hv
      have : ((2 ^ 53 - 1 : Nat) : ℚ) ≤ m := by push_cast; linarith
      have hm : 2 ^ 53 - 1 ≤ m := by exact_mod_cast this
      by_contra hc
      have hm' : m = 2 ^ 53 - 1 := by omega
      have hmq : (m : ℚ) = 2 ^ 53 - 1 := by rw [hm']; norm_num
      have := h.tie_even (le_antisymm h.near (by rw [hmq]; exact le_trans (by linarith) (le_abs_self _)))
      omega
  · have hm : 2 ^ 52 ≤ m := by omega
    have e1 : 2 ^ 1024 ≤ m * 2 ^ q.toNat := two_pow_le_mul (b := 972) hm (by omega) rfl
    have e2 : (2 ^ 53 - 1 / 2) * 2 ^ (971 : Int) ≤ v := by
      have hn : (2 : ℚ) ^ 52 ≤ v / 2 ^ q := by rcases h.normal with h' | h'; omega; exact h'
      calc (2 ^ 53 - 1 / 2 : ℚ) * 2 ^ (971 : Int) ≤ 2 ^ 52 * 2 ^ (972 : Int) := by
            rw [u1, u2]
            generalize (2 : ℚ) ^ 970 = u at unit ⊢
            linarith only [unit]
        _ ≤ 2 ^ 52 * 2 ^ q :=
            mul_le_mul_of_nonneg_left (zpow_le_zpow_right₀ (by norm_num) (by omega)) (by positivity)
        _ ≤ v := (le_div_iff₀ hqp).mp hn
    exact ⟨fun _ => e2, fun _ => e1⟩

/-- `roundToBinary64 n d` is `fl(n/d)`. -/
theorem roundToBinary64_spec (n d : Nat) (hd : 0 < d) : RoundsToBinary64 ((n : ℚ) / d) (roundToBinary64 n d) := by
  by_cases hn : n = 0
  · subst hn
    rw [show roundToBinary64 0 d = some ⟨0, -1074⟩ from rfl]
    have pos : (0 : ℚ) < 2 ^ 1024 - 2 ^ 970 := by
      have unit : (0 : ℚ) < 2 ^ 970 := by positivity
      rw [top_by_unit.2.2.2]
      generalize (2 : ℚ) ^ 970 = u at *
      linarith
    refine ⟨⟨fun h => (by cases h), fun h => absurd h (by rw [Nat.cast_zero, zero_div]; exact not_le.mpr pos)⟩, fun x hx => ?_⟩
    cases hx
    refine ⟨by unfold IsBinary64; norm_num, fun y _ => ⟨?_, fun _ _ => rfl⟩⟩
    simp only [binary64Value, Nat.cast_zero, zero_div, zero_mul, sub_self, abs_zero]
    exact abs_nonneg _
  have hr := roundedAt_ratio hn hd.ne'
  unfold roundToBinary64
  rw [if_neg hn]
  dsimp only at hr ⊢
  generalize max (ratioExponent n d - 52) (-1074) = q at *
  generalize roundQ (n * 2 ^ (-q).toNat) (d * 2 ^ q.toNat) = m at *
  obtain ⟨m1, m2⟩ := hr.mant_bounds
  have hq := hr.least
  unfold RoundsToBinary64
  rw [← hr.overflow_iff]
  split
  next hov => exact ⟨⟨fun _ => hov, fun _ => rfl⟩, fun x hx => by cases hx⟩
  next hov =>
    have hq' : q ≤ 971 := by
      by_contra hc
      exact hov (two_pow_le_mul (b := 972) (m2.resolve_left (by omega)) (by omega) rfl)
    split
    next hm =>
      refine ⟨⟨fun h => (by cases h), fun h => absurd h hov⟩, fun x hx => ?_⟩
      cases hx
      have hq'' : q ≠ 971 := by
        rintro rfl
        exact hov (by rw [hm, show (971 : Int).toNat = 971 from rfl, ← two_pow_1024 53 971 rfl])
      have hval : binary64Value ⟨2 ^ 52, q + 1⟩ = m * 2 ^ q := by
        rw [hm, binary64Value, zpow_add₀ (by norm_num)]
        push_cast
        ring
      rw [hval]
      exact ⟨⟨by norm_num, by dsimp only; omega, by dsimp only; omega, .inr le_rfl⟩, fun y hy =>
        ⟨(hr.nearest hy).1, fun _ _ => by norm_num⟩⟩
    next hm =>
      refine ⟨⟨fun h => (by cases h), fun h => absurd h hov⟩, fun x hx => ?_⟩
      cases hx
      exact ⟨⟨by dsimp only; omega, hq, hq', m2⟩, fun y hy => hr.nearest hy⟩

/-- `timesBinary64 a x` is `fl(a × x)`. -/
theorem timesBinary64_spec (a : Nat) (x : Binary64) : RoundsToBinary64 (a * binary64Value x) (timesBinary64 a x) := by
  have h := roundToBinary64_spec (a * x.mant * 2 ^ x.exp.toNat) (2 ^ (-x.exp).toNat) (by positivity)
  have hv : (((a * x.mant * 2 ^ x.exp.toNat : Nat) : ℚ) / ((2 ^ (-x.exp).toNat : Nat) : ℚ)) = a * binary64Value x := by
    rw [div_eq_iff (by positivity), binary64Value]
    push_cast
    rw [← zpow_mul_pow_toNat_neg x.exp]
    ring
  rwa [hv] at h

/-- `nearestInteger x` is `RNE(x)`. -/
theorem nearestInteger_spec (x : Binary64) : NearestEven (binary64Value x) (nearestInteger x) := by
  have hv : binary64Value x * ((2 ^ (-x.exp).toNat : Nat) : ℚ) = ((x.mant * 2 ^ x.exp.toNat : Nat) : ℚ) := by
    rw [binary64Value]
    push_cast
    rw [← zpow_mul_pow_toNat_neg x.exp]
    ring
  obtain ⟨h1, h2⟩ := roundQ_near (by positivity) hv
  exact nearestEven_of_near h1 h2

/-- `RNE(fl(a × fl(b / c)))`, where neither result overflows. -/
theorem scaleBinary64_of_some {a b c : Nat} {r p : Binary64} (hr : roundToBinary64 b c = some r)
    (hp : timesBinary64 a r = some p) : scaleBinary64 a b c = nearestInteger p := by
  simp [scaleBinary64, hr, hp]

end Sys2Proof.Machine
end

