-- ==== Sys2Proof/Laws/Text.lean ====
section
/-! SUPPORT. The line split by its two cases (R120), and the bits of an integer's low byte (R8, R117). -/

namespace Sys2Proof.Machine

/-! ### Lines -/

theorem textLines_nil (breaks : List Nat) : textLines breaks [] = [[]] := rfl

theorem textLines_ne_nil (breaks t : List Nat) : textLines breaks t ≠ [] := by
  cases t with
  | nil => simp [textLines]
  | cons c cs =>
    simp only [textLines]
    split
    · simp
    · split <;> simp

/-- A break starts a new line. -/
theorem textLines_break {breaks : List Nat} {c : Nat} (h : c ∈ breaks) (cs : List Nat) :
    textLines breaks (c :: cs) = [] :: textLines breaks cs := by
  simp [textLines, h]

/-- Any other code point goes to the front of the first line. -/
theorem textLines_char {breaks : List Nat} {c : Nat} (h : c ∉ breaks) (cs : List Nat) :
    ∃ l ls, textLines breaks cs = l :: ls ∧ textLines breaks (c :: cs) = (c :: l) :: ls := by
  rcases hl : textLines breaks cs with _ | ⟨l, ls⟩
  · exact absurd hl (textLines_ne_nil breaks cs)
  · exact ⟨l, ls, rfl, by simp [textLines, h, hl]⟩

/-! ### Low bits of integers -/

/-- The low byte of an integer has the low bits of its two's-complement form (R8). -/
theorem ofInt_getLsbD (x : Int) {k : Nat} (hk : k < 8) : (BitVec.ofInt 8 x).getLsbD k = x.testBit k := by
  cases x with
  | ofNat m =>
    change (BitVec.ofNat 8 m).getLsbD k = m.testBit k
    rw [BitVec.getLsbD_ofNat]
    simp [hk]
  | negSucc m =>
    rw [BitVec.ofInt_negSucc_eq_not_ofNat, BitVec.getLsbD_not, BitVec.getLsbD_ofNat]
    simp [Int.testBit, hk]

/-- A shift by four bits is a multiplication by 16. -/
theorem ofInt_shiftLeft_four (x : Int) : BitVec.ofInt 8 x <<< 4 = BitVec.ofInt 8 (x * 16) := by
  apply BitVec.eq_of_toNat_eq
  simp only [BitVec.toNat_shiftLeft, BitVec.toNat_ofInt, Nat.shiftLeft_eq]
  omega

end Sys2Proof.Machine
end

