-- ==== Sys2Proof/Tests/Slice0.lean ====
section
/-! SUPPORT. Tests against the spec's own vectors (95_test_vectors.md) and hand-written words, and, for each statement with
hypotheses, a state and operands that meet them. -/

namespace Sys2Proof.Tests

open Sys2Proof.Machine

/-! ### Helpers -/

/-- The next state of an outcome. -/
def nextState? (o : Host.Outcome State Fault Refusal) : Option State :=
  match o with
  | .next t => some t
  | .fault _ => none
  | .refused _ => none

/-- The refusal of an outcome. -/
def refusal? (o : Host.Outcome State Fault Refusal) : Option Refusal :=
  match o with
  | .next _ => none
  | .fault _ => none
  | .refused r => some r

/-- The reset state with these requests on the port. -/
def offering (rs : List Request) : State := { State.reset with offers := rs }

/-- The reset state with this profile, configured so. -/
def withProfile (d m : Nat) : State :=
  { State.reset with profile := ⟨d, m⟩, config := { Config.default with profile := ⟨d, m⟩ } }

/-- A block emitting CUT with its last byte, the sink's events given. -/
def lastByteOfCut (es : List SinkEvent) : State :=
  { State.reset with phase := .busy 0x69 [], lat := some .cut, hist := [0x1B], sinkScript := es }

/-- A block emitting CUT with both bytes, the sink's events given. -/
def bothBytesOfCut (es : List SinkEvent) : State :=
  { State.reset with phase := .busy 0x1B [0x69], lat := some .cut, sinkScript := es }

/-- The bytes a state is going to emit. -/
def pendingBytes (s : State) : List Byte :=
  match s.phase with
  | .idle => []
  | .busy b rest => b :: rest

/-- The bytes a request accepted in a state is going to emit. -/
def frameOf (i : Instr) (s : State) : Option (List Byte) := (nextState? (exec i s)).map pendingBytes

/-- The status a request ends with at once. -/
def statusOf (i : Instr) (s : State) : Option (Option Status) := (nextState? (exec i s)).map State.response

/-! ### Well-formedness: one ill-formed term for each check -/

theorem test_illFormed_codePoint : wellFormed (.text [0x41, 0x110000]) = false := by decide
theorem test_wellFormed_lastCodePoint : wellFormed (.text [0x10FFFF]) = true := by decide
theorem test_illFormed_rowCount : wellFormed (.raster ⟨1, 2, .rows [[.black]]⟩) = false := by decide
theorem test_illFormed_rowLength : wellFormed (.raster ⟨2, 1, .rows [[.black]]⟩) = false := by decide
theorem test_wellFormed_emptyRows : wellFormed (.raster ⟨0, 2, .rows [[], []]⟩) = true := by decide

/-! ### Decoding: request records by R81, commands by R84 to R88, bytes written out by hand -/

theorem test_decode_reset : decode ⟨0b000, []⟩ = .ok .reset := by decide
theorem test_decode_mode : decode ⟨0b001, [.num 0xFF]⟩ = .ok (.mode 0b11111111) := by decide
theorem test_decode_spacing : decode ⟨0b010, [.num 30]⟩ = .ok (.spacing 0b00011110) := by decide
theorem test_decode_size : decode ⟨0b011, [.num (-1), .num 16]⟩ = .ok (.size (-1) 16) := by decide
theorem test_decode_text : decode ⟨0b100, [.text [0x48, 0x49]]⟩ = .ok (.text [72, 73]) := by decide
theorem test_decode_feed : decode ⟨0b101, [.num 3]⟩ = .ok (.feed 3) := by decide
theorem test_decode_cut : decode ⟨0b110, []⟩ = .ok .cut := by decide
theorem test_decode_raster :
    decode ⟨0b111, [.image ⟨1, 1, .rows [[.black]]⟩]⟩ = .ok (.raster ⟨1, 1, .rows [[.black]]⟩) := by decide
theorem test_decode_wrongArguments : decode ⟨0b110, [.num 1]⟩ = .error .wrongArguments := by decide
theorem test_decode_byteTooLarge : decode ⟨0b001, [.num 256]⟩ = .error .byteOutOfRange := by decide
theorem test_decode_byteNegative : decode ⟨0b010, [.num (-1)]⟩ = .error .byteOutOfRange := by decide
theorem test_decode_negativeCount : decode ⟨0b101, [.num (-1)]⟩ = .error .negativeCount := by decide

theorem test_tableWord_reset : decodeTableWord 16 0b0100000000011011 = some .reset := by decide
theorem test_tableWord_mode : decodeTableWord 24 0b000010000010000100011011 = some (.mode 0x08) := by decide
theorem test_tableWord_spacing : decodeTableWord 24 0b000111100011001100011011 = some (.spacing 30) := by decide
theorem test_tableWord_size : decodeTableWord 24 0b011100110010000100011101 = some (.size 7 3) := by decide
theorem test_tableWord_text : decodeTableWord 32 0x0A0D4948 = some (.text [0x48, 0x49]) := by decide
theorem test_tableWord_feed : decodeTableWord 8 0b00001010 = some (.feed 1) := by decide
theorem test_tableWord_cut : decodeTableWord 16 0b0110100100011011 = some .cut := by decide
theorem test_tableWord_raster :
    decodeTableWord 64 0x000200010030761D = some (.raster ⟨8, 2, .uniform .white⟩) := by decide
/-- The match strings of the table read as one number, first byte highest. -/
theorem test_tableWord_highFirst :
    decodeTableWord 16 0x1B40 = some .reset ∧ decodeTableWord 24 0x1D2100 = some (.size 0 0) := by decide

/-- P1 of 95_test_vectors.md as the sink receives it. -/
theorem test_decodeStream_P1 :
    decodeStream [0x1B, 0x40, 0x1D, 0x21, 0x11, 0x48, 0x49, 0x0D, 0x0A, 0x0A, 0x0A, 0x1B, 0x69] =
      .ok [.escAt, .gsBang 0x11, .textLine [0x48, 0x49], .lineFeed, .lineFeed, .escI] := by decide
/-- P2: the raster command of the 16 x 2 image. -/
theorem test_decodeFrame_P2 :
    decodeFrame [0x1D, 0x76, 0x30, 0x00, 0x02, 0x00, 0x02, 0x00, 0xFF, 0xAA, 0x0F, 0x01, 0x0A, 0x0A] =
      .ok (.gsVZero 2 2 [0xFF, 0xAA, 0x0F, 0x01], [0x0A]) := by decide

/-! ### Assembly (R95) -/

/-- P1, with a comment, a blank line and a lower-case mnemonic. -/
theorem test_assemble_P1 :
    assemble "RESET\nsize 0x1, 1 ; both\n\nTEXT \"HI\"\nFEED 2\nCUT" =
      .ok [⟨0, []⟩, ⟨3, [.num 1, .num 1]⟩, ⟨4, [.text [0x48, 0x49]]⟩, ⟨5, [.num 2]⟩, ⟨6, []⟩] := by decide
theorem test_assemble_image :
    assemble "IMAGE p 2x1\n#.\nIMAGE empty 0x5 FILL WHITE\nRASTER p\nRASTER empty" =
      .ok [⟨7, [.image ⟨2, 1, .rows [[.black, .white]]⟩]⟩, ⟨7, [.image ⟨0, 5, .uniform .white⟩]⟩] := by decide
theorem test_assemble_escapes :
    assemble "TEXT \"a\\r\\nb\\\\\\\"\"" = .ok [⟨4, [.text [0x61, 0x0D, 0x0A, 0x62, 0x5C, 0x22]]⟩] := by decide
theorem test_assemble_undeclared : assemble "RASTER p" = .error .undeclaredImage := by decide
theorem test_assemble_badRow : assemble "IMAGE p 2x1\n#" = .error .badRow := by decide

/-! ### One request each (95_test_vectors.md, Part 2) -/

/-- V-F1. -/
theorem test_reset : frameOf .reset State.reset = some [0x1B, 0x40] := by decide
/-- V-M2. -/
theorem test_mode : frameOf (.mode 0xFF) State.reset = some [0x1B, 0x21, 0xFF] := by decide
/-- V-M6. -/
theorem test_spacing : frameOf (.spacing 30) State.reset = some [0x1B, 0x33, 0x1E] := by decide
/-- V-S5, V-S6, V-S7, V-S8 under PerNibble. -/
theorem test_size_perNibble :
    sizeByte .perNibble 16 1 = 0x01 ∧ sizeByte .perNibble 0 16 = 0x00 ∧ sizeByte .perNibble (-1) 0 = 0xF0 ∧
    sizeByte .perNibble 1 (-1) = 0x1F := by decide
/-- V-S4, V-S6, V-S8 under CombinedByte. -/
theorem test_size_combinedByte :
    sizeByte .combinedByte 7 3 = 0x73 ∧ sizeByte .combinedByte 0 16 = 0x10 ∧
    sizeByte .combinedByte 1 (-1) = 0xFF := by decide
/-- V-T3: a trailing empty line. -/
theorem test_text_trailingBreak :
    frameOf (.text [0x61, 0x0A]) State.reset = some [0x61, 0x0D, 0x0A, 0x0D, 0x0A] := by decide
/-- V-T6: one placeholder per code point. -/
theorem test_text_placeholder : frameOf (.text [0x20AC, 0x78]) State.reset = some [0x3F, 0x78, 0x0D, 0x0A] := by decide
/-- V-D1: no byte, OK at once. -/
theorem test_feed_zero : statusOf (.feed 0) State.reset = some (some .ok) := by decide
/-- V-D3. -/
theorem test_feed_three : frameOf (.feed 3) State.reset = some [0x0A, 0x0A, 0x0A] := by decide
/-- V-F2. -/
theorem test_cut : frameOf .cut State.reset = some [0x1B, 0x69] := by decide
/-- V-RS23: MSB first. -/
theorem test_raster_msbFirst :
    frameOf (.raster ⟨16, 1, .rows [[.white, .black, .white, .white, .black, .white, .white, .black,
      .white, .black, .black, .white, .black, .black, .black, .black]]⟩) (withProfile 16 2000) =
      some [0x1D, 0x76, 0x30, 0x00, 0x02, 0x00, 0x01, 0x00, 0x49, 0x6F, 0x0A] := by decide
/-- P4 under PadUp: a resize to 12 x 6 that the image source answers all BLACK. -/
theorem test_raster_padUp :
    frameOf (.raster ⟨4, 2, .uniform .black⟩) { withProfile 16 6 with resizeScript := [.uniform .black] } =
      some [0x1D, 0x76, 0x30, 0x00, 0x02, 0x00, 0x06, 0x00,
        0xFF, 0xF0, 0xFF, 0xF0, 0xFF, 0xF0, 0xFF, 0xF0, 0xFF, 0xF0, 0xFF, 0xF0, 0x0A] := by decide
/-- S7: the plan and the header of a 512 x 384 image. -/
theorem test_plan_512x384 :
    rasterPlan Config.default ⟨384, 2000⟩ 512 384 = .ok ⟨384, 288, ⟨48, 288, 48, 288⟩⟩ ∧
    rasterHeader 48 288 = [0x1D, 0x76, 0x30, 0x00, 0x30, 0x00, 0x20, 0x01] := by decide
/-- V-RS7, V-RS8, V-RS9: ties to even. -/
theorem test_candidate_ties :
    candidateHeight .exactHalfEven 3 384 768 = 2 ∧ candidateHeight .exactHalfEven 5 384 768 = 2 ∧
    candidateHeight .exactHalfEven 7 384 768 = 4 := by decide
/-- V-RS10, V-RS12, V-RS20b: the three errors. -/
theorem test_plan_errors :
    rasterPlan Config.default ⟨384, 2000⟩ 768 1 = .error .scaleUnderflow ∧
    rasterPlan Config.default ⟨384, 2000⟩ 0 5 = .error .invalidImage ∧
    rasterPlan { Config.default with headerOverflow := .reject } ⟨8, 70000⟩ 8 65537 = .error .headerOverflow := by decide
/-- V-RS18a, b, c: the three width fits. -/
theorem test_fitWidth_154 :
    fitWidth .padUp 154 = (154, 20) ∧ fitWidth .floorResize 154 = (152, 19) ∧ fitWidth .cropTrailing 154 = (154, 19) := by
  decide
/-- V-RS20a: the header says one row. V-RS20c: the clamped one says 65535. -/
theorem test_header_overflow :
    rasterHeader 1 65537 = [0x1D, 0x76, 0x30, 0x00, 0x01, 0x00, 0x01, 0x00] ∧
    rasterCounts .clamp 1 65537 = some ⟨1, 65535, 1, 65535⟩ := by decide
/-- V-RS21a, b: exact arithmetic gives 8, binary64 gives 7. -/
theorem test_binary64_2816x55 :
    candidateHeight .exactHalfEven 55 384 2816 = 8 ∧ candidateHeight .binary64Reference 55 384 2816 = 7 := by
  decide +kernel

/-! ### One step -/

/-- The last byte of CUT, accepted. -/
theorem test_emit_last :
    nextState? (step (lastByteOfCut [.answers .accepted])) =
      some { State.reset with hist := [0x1B, 0x69], response := some .ok, responses := [.ok] } := by decide
/-- V-F4: a failed byte that reached the printer. -/
theorem test_emit_failedDelivered :
    nextState? (step (lastByteOfCut [.answers (.failed true)])) =
      some { State.reset with
        hist := [0x1B, 0x69], response := some .transportWrite, responses := [.transportWrite] } := by decide
/-- P5: reset while a byte is in flight, here not delivered. -/
theorem test_reset_inFlight :
    nextState? (step { bothBytesOfCut [] with resetInput := [.asserted false] }) = some State.reset := by decide
theorem test_step_illegalProfile : refusal? (step (withProfile 12 2000)) = some .illegalProfile := by decide
theorem test_step_illFormed :
    refusal? (step (offering [encode (.text [0x110000])])) = some .illFormed := by decide
theorem test_step_notPresentable :
    refusal? (step (offering [⟨1, [.num 300]⟩])) = some (.notPresentable .byteOutOfRange) := by decide
theorem test_step_textTooLong :
    refusal? (step { offering [encode (.text [65, 66])] with
      config := { Config.default with textMaxLen := some 1 } }) = some .textTooLong := by decide
theorem test_step_imageTooLarge :
    refusal? (step { offering [encode (.raster ⟨16, 1, .uniform .black⟩)] with
      config := { Config.default with imageDimBits := some 4 } }) = some .imageTooLarge := by decide
/-- The next step after State.reset with a table word runs that word's request. -/
theorem test_withFetchWord :
    (nextState? (step (State.reset.withFetchWord 24 0x08211B))).map pendingBytes = some [0x1B, 0x21, 0x08] := by decide

/-! ### Witnesses: hypotheses that a state and operands meet -/

theorem witness_DecodedRecordIsTheEncoding : decode ⟨5, [.num 3]⟩ = .ok (.feed 3) := by decide
theorem witness_OutOfRangeArgumentRefused : (256 : Int) < 0 ∨ (255 : Int) < 256 := by decide
theorem witness_OutOfRangeArgumentRefused_below : (-1 : Int) < 0 ∨ (255 : Int) < -1 := by decide
theorem witness_OutOfRangeArgumentRefused_noRequest :
    let s := offering [⟨6, [.num 1]⟩]
    profileLegal s.profile = true ∧ s.resetInput = [] ∧ s.phase = .idle ∧ s.offers = ⟨6, [.num 1]⟩ :: [] ∧
    ∀ i : Instr, encode i ≠ ⟨6, [.num 1]⟩ := by
  refine ⟨by decide, rfl, rfl, rfl, fun i h => ?_⟩
  cases i <;> simp [encode, selectCode, requestArgs] at h
theorem witness_OutOfRangeArgumentRefused_illFormed :
    (∃ c ∈ [0x41, 0x110000], 0x10FFFF < c) ∧
    (([[.black]] : List (List Pixel)).length ≠ 2 ∨ ∃ row ∈ ([[.black]] : List (List Pixel)), row.length ≠ 1) := by decide
theorem witness_OutOfRangeArgumentRefused_textMaxLen :
    let s := { offering [encode (.text [65, 66])] with config := { Config.default with textMaxLen := some 1 } }
    s.phase = .idle ∧ s.offers = encode (.text [65, 66]) :: [] ∧ s.config.textMaxLen = some 1 ∧
    (∀ c ∈ [65, 66], c ≤ 0x10FFFF) ∧ 1 < [65, 66].length ∧ [65].length ≤ 1 := by decide
theorem witness_OutOfRangeArgumentRefused_imageDimBits :
    let s := { offering [encode (.raster ⟨16, 15, .uniform .black⟩)] with
      config := { Config.default with imageDimBits := some 4 } }
    s.phase = .idle ∧ s.config.imageDimBits = some 4 ∧ (⟨16, 15, .uniform .black⟩ : Image).wellFormed = true ∧
    2 ^ 4 ≤ 16 ∧ 15 < 2 ^ 4 := by decide
theorem witness_CommandBytesDecode_raster : frameReadable (.gsVZero 2 1 [0xFF, 0xAA]) = true := by decide
theorem witness_CommandBytesDecode_text : frameReadable (.textLine [0x48, 0x49]) = true := by decide
theorem witness_RasterFrameReadsBack : 65535 ≤ 65535 ∧ 1 ≤ 65535 := by decide
theorem witness_EmittedFrameIsOfTheMap :
    State.reset.phase = .idle ∧ (nextState? (exec .cut State.reset)).map State.phase = some (.busy 0x1B [0x69]) := by
  decide
theorem witness_EmittedFrameIsOfTheMap_text :
    frameOf (.text [0x61, 0x0A]) State.reset = some ([.textLine [0x61], .textLine []].flatMap encodeFrame) ∧
    0x0A ∈ State.reset.config.lineBreak ∧ State.reset.config.placeholderByte ≠ 0x0A := by decide
theorem witness_EmittedFrameIsOfTheMap_raster :
    frameOf (.raster ⟨8, 1, .uniform .black⟩) (withProfile 8 1) = some ([.gsVZero 1 1 [0xFF]].flatMap encodeFrame) := by decide
theorem witness_TextCanSpellACommand : State.reset.phase = .idle ∧ State.reset.config.lineBreak = [0x0A] := by decide
theorem witness_AssembledRequestsAreWellFormed : assemble "FEED 3" = .ok [⟨5, [.num 3]⟩] := by decide
theorem witness_ResetAccepted : State.reset.phase = .idle := by decide
theorem witness_ModeAccepted : (withProfile 16 6).phase = .idle := by decide
theorem witness_SpacingAccepted : (offering [encode .cut]).phase = .idle := by decide
theorem witness_SizeAccepted_perNibble :
    State.reset.phase = .idle ∧ State.reset.config.textSizeMasking = .perNibble := by decide
theorem witness_SizeAccepted_combinedByte :
    let s := { State.reset with config := { Config.default with textSizeMasking := .combinedByte } }
    s.phase = .idle ∧ s.config.textSizeMasking = .combinedByte := by decide
theorem witness_TextAccepted : { State.reset with hist := [0x0A] }.phase = .idle := by decide
theorem witness_FeedAccepted : { State.reset with responses := [.ok] }.phase = .idle := by decide
theorem witness_CutAccepted : { State.reset with response := some .transportWrite }.phase = .idle := by decide
theorem witness_RasterInvalidImage_width :
    State.reset.phase = .idle ∧ ((⟨0, 5, .uniform .white⟩ : Image).width = 0 ∨
      (⟨0, 5, .uniform .white⟩ : Image).height = 0) := by decide
theorem witness_RasterInvalidImage_height :
    State.reset.phase = .idle ∧ ((⟨5, 0, .uniform .white⟩ : Image).width = 0 ∨
      (⟨5, 0, .uniform .white⟩ : Image).height = 0) := by decide
/-- Each clause of RasterOutcome is reached: underflow, overflow under Reject, a frame. -/
theorem witness_RasterOutcome_underflow :
    State.reset.phase = .idle ∧ 0 < (⟨768, 1, .uniform .black⟩ : Image).width ∧
    statusOf (.raster ⟨768, 1, .uniform .black⟩) State.reset = some (some .scaleUnderflow) := by decide
theorem witness_RasterOutcome_overflow :
    let s := { withProfile 8 70000 with
      config := { Config.default with profile := ⟨8, 70000⟩, headerOverflow := .reject } }
    s.phase = .idle ∧ statusOf (.raster ⟨8, 65536, .uniform .black⟩) s = some (some .headerOverflow) := by decide
theorem witness_RasterOutcome_frame :
    frameOf (.raster ⟨8, 1, .uniform .black⟩) (withProfile 8 1) =
      some [0x1D, 0x76, 0x30, 0x00, 0x01, 0x00, 0x01, 0x00, 0xFF, 0x0A] := by decide
theorem witness_BusyBlockLeavesRequestWaiting : (lastByteOfCut []).phase = .busy 0x69 [] := by decide
theorem witness_AcceptFrame :
    State.reset.phase = .idle ∧ (nextState? (exec (.feed 1) State.reset)).isSome = true := by decide
theorem witness_PreEmissionStatuses :
    State.reset.phase = .idle ∧ (nextState? (exec (.raster ⟨0, 1, .uniform .white⟩) State.reset)).map State.responses =
      some [.invalidImage] := by decide
theorem witness_SizeByteByPolicy : (0 : Int) ≤ 0 ∧ (0 : Int) ≤ 15 ∧ (0 : Int) ≤ 15 ∧ (15 : Int) ≤ 15 := by decide
theorem witness_TextLinesCutAtBreaks : (∀ c ∈ [0x61], c ∉ [0x0A]) ∧ 0x0A ∈ [0x0A] := by decide
theorem witness_CharacterEncoding : 0x7F ≤ 0x7F ∧ 0x7F < 0x80 := by decide
theorem witness_LineFeedsOnlyEndLines : (0x3F : Byte) ≠ 0x0A := by decide
theorem witness_RoundQNearestTiesToEven : 0 < 2 := by decide
theorem witness_TwoStageFit :
    0 < 4 ∧ 0 < 6 ∧ candidateHeight .exactHalfEven 1 16 4 ≤ 6 ∧ 6 < candidateHeight .exactHalfEven 2 16 4 := by decide
/-- 384/2816 and its product with 55 are both numbers of the format; 7.5 is rounded below (R171). -/
theorem witness_TwoStageFit_binary64 :
    ((roundToBinary64 384 2816).bind (timesBinary64 55)).map nearestInteger = some 7 := by decide +kernel
theorem witness_TwoStageFit_binary64_capped :
    (6 < 8 ∧ (roundToBinary64 6 8).bind (timesBinary64 16) = some ⟨12 * 2 ^ 49, -49⟩) := by decide +kernel
theorem witness_AspectKept : 0 < 4 ∧ 0 < 6 ∧ 0 < 16 ∧ 6 < candidateHeight .exactHalfEven 2 16 4 := by decide
theorem witness_WidthFitPolicies : 384 % 8 = 0 := by decide
theorem witness_HeaderOverflowPolicies :
    65535 ≤ 65535 ∧ 65535 < 65536 ∧ rasterCounts .reject 65535 65535 = some ⟨65535, 65535, 65535, 65535⟩ := by decide
theorem witness_PixelsPackMsbFirst : 0 < 1 ∧ 7 < 8 ∧ 0 < 1 := by decide
theorem witness_PackerReadsOnlyInside :
    ∀ x y, x < 1 → x < 8 * 1 → y < 1 →
      (fun _ _ => Pixel.black) x y = (fun x _ => if x = 0 then Pixel.black else .white) x y := by
  intro x y h _ _
  rw [Nat.lt_one_iff.mp h]
  rfl
theorem witness_WellFormedImageIsFullyRead :
    (⟨2, 1, .rows [[.black, .white]]⟩ : Image).wellFormed = true ∧ 1 < 2 ∧ 0 < 1 := by decide
theorem witness_DotWidthImageIsNotRescaled :
    State.reset.phase = .idle ∧ State.reset.config.rounding = .exactHalfEven ∧
    State.reset.config.headerOverflow = .preserve ∧ profileLegal State.reset.profile = true ∧
    (⟨384, 2000, .uniform .black⟩ : Image).width = State.reset.profile.dotWidth ∧
    0 < (⟨384, 2000, .uniform .black⟩ : Image).height ∧
    (⟨384, 2000, .uniform .black⟩ : Image).height ≤ State.reset.profile.maxHeight := by decide
theorem witness_EmitFollowsTheSink_waits :
    let s := lastByteOfCut [.waits]
    profileLegal s.profile = true ∧ s.resetInput = [] ∧ s.phase = .busy 0x69 [] ∧ s.sinkScript = [.waits] := by decide
theorem witness_EmitFollowsTheSink_goesOn :
    let s := bothBytesOfCut [.answers .accepted]
    profileLegal s.profile = true ∧ s.phase = .busy 0x1B [0x69] ∧ s.sinkScript = [.answers .accepted] := by decide
theorem witness_EmitFollowsTheSink_last :
    let s := lastByteOfCut [.answers .accepted]
    profileLegal s.profile = true ∧ s.phase = .busy 0x69 [] ∧ s.sinkScript = [.answers .accepted] := by decide
theorem witness_EmitFollowsTheSink_fails :
    let s := lastByteOfCut [.answers (.failed true)]
    profileLegal s.profile = true ∧ s.phase = .busy 0x69 [] ∧ s.sinkScript = [.answers (.failed true)] := by decide
theorem witness_EmitFollowsTheSink_pastScript :
    let s := lastByteOfCut []
    profileLegal s.profile = true ∧ s.resetInput = [] ∧ s.phase = .busy 0x69 [] ∧ s.sinkScript = [] := by decide
theorem witness_EmitFollowsTheSink_released :
    let s := { lastByteOfCut [.answers .accepted] with resetInput := [.released] }
    profileLegal s.profile = true ∧ s.resetInput = .released :: [] ∧ s.phase = .busy 0x69 [] ∧
    s.sinkScript = [.answers .accepted] := by decide
theorem witness_AcceptedFrameIsEmittedWhole :
    let s := bothBytesOfCut [.answers .accepted, .answers .accepted]
    profileLegal s.profile = true ∧ s.resetInput = [] ∧ s.phase = .busy 0x1B [0x69] ∧
    s.sinkScript = List.replicate 2 (.answers .accepted) ++ [] := by decide
theorem witness_FailedByteEndsTheRequest :
    let s := bothBytesOfCut [.answers .accepted, .answers (.failed false)]
    profileLegal s.profile = true ∧ s.resetInput = [] ∧ s.phase = .busy 0x1B [0x69] ∧
    s.sinkScript = List.replicate 1 (.answers .accepted) ++ .answers (.failed false) :: [] := by decide
theorem witness_EveryRequestEnds :
    let s := bothBytesOfCut []
    profileLegal s.profile = true ∧ s.resetInput = [] ∧ s.phase = .busy 0x1B [0x69] := by decide
theorem witness_JobPrintsFramesInOrder :
    let s := { offering [encode .cut] with sinkScript := [.answers .accepted, .answers .accepted] }
    profileLegal s.profile = true ∧ s.resetInput = [] ∧ s.phase = .idle ∧ s.lat = none ∧
    wellFormed .cut = true ∧ portRefusal s.config .cut = none ∧ framerFrame s.config .cut = some [0x1B, 0x69] ∧
    s.offers = [Instr.cut].map encode ++ [] ∧
    s.sinkScript = List.replicate (jobBytes s.config [.cut]).length (.answers .accepted) ++ [] := by decide
theorem witness_StepRunsTheOfferedRequest :
    let s := offering [encode (.feed 3)]
    profileLegal s.profile = true ∧ s.phase = .idle ∧ s.offers = ⟨5, [.num 3]⟩ :: [] ∧ decode ⟨5, [.num 3]⟩ = .ok (.feed 3) ∧
    wellFormed (.feed 3) = true ∧ portRefusal s.config (.feed 3) = none ∧ s.resetInput = [] := by decide
theorem witness_StepRunsTheOfferedRequest_released :
    let s := { offering [encode .cut] with resetInput := [.released] }
    profileLegal s.profile = true ∧ s.phase = .idle ∧ s.offers = ⟨6, []⟩ :: [] ∧ decode ⟨6, []⟩ = .ok .cut ∧
    wellFormed .cut = true ∧ portRefusal s.config .cut = none ∧ s.resetInput = .released :: [] := by decide
theorem witness_WaitingKeepsAllState :
    profileLegal State.reset.profile = true ∧ State.reset.resetInput = [] ∧ State.reset.phase = .idle ∧
    State.reset.offers = [] := by decide
theorem witness_IllegalProfileIsRefused :
    ¬ (0 < (withProfile 12 2000).profile.dotWidth ∧ (withProfile 12 2000).profile.dotWidth % 8 = 0 ∧
      0 < (withProfile 12 2000).profile.maxHeight) := by decide
theorem witness_NarrowPortRefusesFeedCount :
    let s := { offering [encode (.feed 16)] with config := { Config.default with feedCountBits := some 4 } }
    profileLegal s.profile = true ∧ s.resetInput = [] ∧ s.phase = .idle ∧ s.config.feedCountBits = some 4 ∧
    s.offers = encode (.feed 16) :: [] ∧ 2 ^ 4 ≤ 16 := by decide
theorem witness_NarrowPortRefusesFeedCount_fits :
    let s := { offering [encode (.feed 15)] with config := { Config.default with feedCountBits := some 4 } }
    s.phase = .idle ∧ s.config.feedCountBits = some 4 ∧ s.offers = encode (.feed 15) :: [] ∧ 15 < 2 ^ 4 := by decide
theorem witness_NarrowPortRefusesFeedCount_unbounded :
    let s := offering [encode (.feed 70000)]
    profileLegal s.profile = true ∧ s.resetInput = [] ∧ s.phase = .idle ∧ s.config.feedCountBits = none ∧
    s.offers = encode (.feed 70000) :: [] := by decide
theorem witness_HardwareReset_idle :
    let s := { State.reset with resetInput := [.asserted true] }
    profileLegal s.profile = true ∧ s.resetInput = .asserted true :: [] ∧ s.phase = .idle := by decide
theorem witness_HardwareReset_busy :
    let s := { bothBytesOfCut [] with resetInput := [.asserted true] }
    profileLegal s.profile = true ∧ s.resetInput = .asserted true :: [] ∧ s.phase = .busy 0x1B [0x69] := by decide
theorem witness_HistoryIsAppendOnly :
    (nextState? (step (lastByteOfCut [.answers .accepted]))).isSome = true := by decide
theorem witness_OneResponsePerRequest :
    (nextState? (step (offering [encode (.feed 0)]))).map State.responses = some [.ok] := by decide
theorem witness_OneResponsePerRequest_lastByte :
    (lastByteOfCut [.answers .accepted]).resetInput = [] ∧ (lastByteOfCut [.answers .accepted]).phase ≠ .idle ∧
    (nextState? (step (lastByteOfCut [.answers .accepted]))).map State.phase = some .idle := by decide
theorem witness_OneResponsePerRequest_emptyFrame :
    (nextState? (step (offering [encode (.feed 0)]))).map (fun t => (t.phase, t.offers)) = some (.idle, []) := by decide
theorem witness_LatchIsReadOnlyWhileBusy :
    (bothBytesOfCut [.answers .accepted]).phase ≠ .idle ∧
    (nextState? (step (bothBytesOfCut [.answers .accepted]))).map State.phase = some (.busy 0x69 []) := by decide
theorem witness_StepKeepsInvariant : Inv (bothBytesOfCut [.answers .accepted]) ∧
    (nextState? (step (bothBytesOfCut [.answers .accepted]))).isSome = true :=
  ⟨⟨rfl, rfl, by decide, fun _ => rfl, fun st h => by cases h⟩, by decide⟩
theorem witness_StepRefinesExecutionCycle :
    (nextState? (step (offering [encode .reset]))).map viewOf =
      some ⟨⟨384, 2000⟩, .busy 0x1B [0x40], some .reset, [], []⟩ := by decide
theorem witness_ExecutionCycleMovesAreSteps :
    BlockStep Config.default ⟨⟨384, 2000⟩, .busy 0x69 [], some .cut, [0x1B], []⟩
      ⟨⟨384, 2000⟩, .idle, none, [0x1B, 0x69], [.ok]⟩ :=
  .emitLast 0x69 rfl

end Sys2Proof.Tests
end

