-- ==== Sys2Proof/Proofs/ProfileRefusal.lean ====
section
/-! SUPPORT. Who refuses: no request does, the request port refuses on grounds of its own, and only the profile's check answers
`illegalProfile` (R7). -/

namespace Sys2Proof.Machine

theorem profileLegal_iff (p : Profile) :
    profileLegal p = true ↔ 0 < p.dotWidth ∧ p.dotWidth % 8 = 0 ∧ 0 < p.maxHeight :=
  decide_eq_true_iff

theorem step_of_illegal_profile {s : State} (h : ¬ profileLegal s.profile = true) :
    step s = .refused .illegalProfile :=
  if_neg h

/-- A request at the port is accepted or left waiting, and neither is a refusal. -/
theorem offerRequest_next (i : Instr) (f : FrameResult) (taken s : State) : ∃ t, offerRequest i f taken s = .next t := by
  cases h : s.phase with
  | idle => exact ⟨_, offerRequest_idle i f taken s h⟩
  | busy b rest => exact ⟨_, offerRequest_busy i f taken s b rest h⟩

theorem exec_next (i : Instr) (s : State) : ∃ t, exec i s = .next t := by
  obtain ⟨f, taken, he, -, -⟩ := exec_eq_offerRequest i s
  rw [he]
  exact offerRequest_next i f taken s

/-! ### The grounds of the request port -/

theorem portRefusal_ne_illegalProfile (cfg : Config) (i : Instr) : portRefusal cfg i ≠ some .illegalProfile := by
  cases i with
  | text t => unfold portRefusal; split <;> simp
  | feed n => unfold portRefusal; split <;> simp
  | raster img => unfold portRefusal; split <;> simp
  | _ => simp [portRefusal]

theorem admitRequest_ne_illegalProfile (cfg : Config) (r : Request) :
    admitRequest cfg r ≠ .error .illegalProfile := by
  unfold admitRequest
  split
  next => simp
  next i _ =>
    split
    next =>
      split
      next e he =>
        rintro ⟨⟩
        exact portRefusal_ne_illegalProfile cfg i he
      next => simp
    next => simp

/-! ### The step -/

theorem idleStep_ne_illegalProfile (s : State) : idleStep s ≠ .refused .illegalProfile := by
  unfold idleStep
  split
  next => simp
  next r _ _ =>
    split
    next e ha =>
      rintro ⟨⟩
      exact admitRequest_ne_illegalProfile s.config r ha
    next i _ =>
      obtain ⟨t, ht⟩ := exec_next i s.takeOffer
      simp [ht]

theorem runStep_ne_illegalProfile (s : State) : runStep s ≠ .refused .illegalProfile := by
  unfold runStep
  split
  next => exact idleStep_ne_illegalProfile s
  next => simp

/-- Under a legal profile the step is a reset or a step of R30, and neither is refused for the profile. -/
theorem step_ne_illegalProfile {s : State} (h : profileLegal s.profile = true) : step s ≠ .refused .illegalProfile := by
  rcases hr : s.sampleReset with ⟨_ | delivered, t⟩
  · rw [step_released s t h hr]
    exact runStep_ne_illegalProfile t
  · simp [step_asserted s t delivered h hr]

/-- Settles O48: the profile's check refuses an illegal profile, and nothing after it gives that ground. -/
theorem illegalProfileIsRefused : Obligations.IllegalProfileIsRefused := by
  intro s
  rw [← profileLegal_iff]
  exact ⟨fun hs h => step_ne_illegalProfile h hs, step_of_illegal_profile⟩

end Sys2Proof.Machine
end

