-- ==== Sys2Proof/Proofs/ExecutionCycle.lean ====
section
/-! SUPPORT. The execution cycle of R30 over the block's state: everything a step can do to the block, said once, and what follows for
the invariant, the relation of R30, the sink history, the responses and the latch. -/

namespace Sys2Proof.Machine

/-! ### The environment apart from the block -/

/-- The environment's lists and counters, which a step uses up; the request port is not among them. -/
structure Environment where
  sinkScript : List SinkEvent
  resizeScript : List Content
  resetInput : List ResetLevel
  sinkDraws : Nat
  resizeDraws : Nat

def State.environment (s : State) : Environment :=
  ⟨s.sinkScript, s.resizeScript, s.resetInput, s.sinkDraws, s.resizeDraws⟩

/-- The same block, with this environment. -/
def State.withEnvironment (e : Environment) (s : State) : State :=
  { s with
    sinkScript := e.sinkScript, resizeScript := e.resizeScript, resetInput := e.resetInput
    sinkDraws := e.sinkDraws, resizeDraws := e.resizeDraws }

@[simp] theorem State.withEnvironment_config (e : Environment) (s : State) : (s.withEnvironment e).config = s.config := rfl
@[simp] theorem State.withEnvironment_profile (e : Environment) (s : State) : (s.withEnvironment e).profile = s.profile := rfl
@[simp] theorem State.withEnvironment_phase (e : Environment) (s : State) : (s.withEnvironment e).phase = s.phase := rfl
@[simp] theorem State.withEnvironment_lat (e : Environment) (s : State) : (s.withEnvironment e).lat = s.lat := rfl
@[simp] theorem State.withEnvironment_response (e : Environment) (s : State) : (s.withEnvironment e).response = s.response := rfl
@[simp] theorem State.withEnvironment_hist (e : Environment) (s : State) : (s.withEnvironment e).hist = s.hist := rfl
@[simp] theorem State.withEnvironment_responses (e : Environment) (s : State) : (s.withEnvironment e).responses = s.responses := rfl
@[simp] theorem State.withEnvironment_offers (e : Environment) (s : State) : (s.withEnvironment e).offers = s.offers := rfl

/-- No reset is asserted at the next step. -/
def State.ResetReleased (s : State) : Prop :=
  ∀ delivered ls, s.resetInput ≠ .asserted delivered :: ls

/-! ### Everything a step can do -/

/-- The moves of a step from `s`: the reset of R230, a wait (R218), and the steps ACCEPT and EMIT of R30, each either going on or
ending the request. `e` is what the step leaves of the environment; which of its answers led to the move is not said. -/
inductive StepMove (s : State) (e : Environment) : State → Prop where
  | reset (delivered : Bool) (ls : List ResetLevel) (asserted : s.resetInput = .asserted delivered :: ls) :
      StepMove s e ((s.withEnvironment e).hardwareReset delivered)
  | wait (released : s.ResetReleased) (starved : s.phase = .idle → s.offers = []) :
      StepMove s e (s.withEnvironment e)
  | acceptEnd (r : Request) (rs : List Request) (i : Instr) (st : Status) (released : s.ResetReleased) (idle : s.phase = .idle)
      (offered : s.offers = r :: rs) (decoded : decode r = .ok i) (presentable : Presentable s.config i)
      (frame : FrameOf s.config s.profile i (.error st) ∨ FrameOf s.config s.profile i (.ok []) ∧ st = .ok) :
      StepMove s e (((s.withEnvironment e).takeOffer.latch i).respond st)
  | acceptFrame (r : Request) (rs : List Request) (i : Instr) (b : Byte) (rest : List Byte) (released : s.ResetReleased)
      (idle : s.phase = .idle) (offered : s.offers = r :: rs) (decoded : decode r = .ok i)
      (presentable : Presentable s.config i) (frame : FrameOf s.config s.profile i (.ok (b :: rest))) :
      StepMove s e (((s.withEnvironment e).takeOffer.latch i).beginEmission b rest)
  | emitNext (b c : Byte) (rest : List Byte) (released : s.ResetReleased) (busy : s.phase = .busy b (c :: rest)) :
      StepMove s e (((s.withEnvironment e).appendHist b).beginEmission c rest)
  | emitEnd (b : Byte) (rest arrived : List Byte) (st : Status) (released : s.ResetReleased) (busy : s.phase = .busy b rest)
      (draw : rest = [] ∧ arrived = [b] ∧ st = .ok ∨ (arrived = [] ∨ arrived = [b]) ∧ st = .transportWrite) :
      StepMove s e (State.respond st { s.withEnvironment e with hist := s.hist ++ arrived })

theorem accept_move {s : State} (e : Environment) {r : Request} {rs : List Request} {i : Instr} {f : FrameResult}
    (released : s.ResetReleased) (idle : s.phase = .idle) (offered : s.offers = r :: rs) (decoded : decode r = .ok i)
    (presentable : Presentable s.config i) (frame : FrameOf s.config s.profile i f) :
    StepMove s e ((s.withEnvironment e).takeOffer.accept i f) := by
  obtain ⟨st, rfl, h⟩ | ⟨rfl, h⟩ | ⟨b, rest, rfl, h⟩ := State.accept_cases i f (s.withEnvironment e).takeOffer
  · rw [h]; exact .acceptEnd r rs i st released idle offered decoded presentable (.inl frame)
  · rw [h]; exact .acceptEnd r rs i .ok released idle offered decoded presentable (.inr ⟨frame, rfl⟩)
  · rw [h]; exact .acceptFrame r rs i b rest released idle offered decoded presentable frame

theorem sinkAnswered_move {s : State} (e : Environment) {b : Byte} {rest : List Byte} (a : SinkAnswer)
    (released : s.ResetReleased) (busy : s.phase = .busy b rest) :
    StepMove s e ((s.withEnvironment e).sinkAnswered b rest a) := by
  obtain ⟨-, c, cs, rfl, h⟩ | ⟨-, rfl, h⟩ | ⟨delivered, -, h⟩ := State.sinkAnswered_cases b rest a (s.withEnvironment e)
  · rw [h]; exact .emitNext b c cs released busy
  · rw [h]; exact .emitEnd b [] [b] .ok released busy (.inl ⟨rfl, rfl, rfl⟩)
  · rw [h]; exact .emitEnd b rest _ .transportWrite released busy (.inr ⟨by cases delivered <;> simp, rfl⟩)

theorem emit_move {s : State} (e : Environment) {b : Byte} {rest : List Byte} (released : s.ResetReleased)
    (busy : s.phase = .busy b rest) : ∃ e', StepMove s e' ((s.withEnvironment e).emit b rest) := by
  obtain ⟨es, -, h⟩ | ⟨a, es, -, h⟩ | ⟨a, -, h⟩ := State.emit_cases b rest (s.withEnvironment e)
  · rw [h]; exact ⟨{ e with sinkScript := es }, .wait released (by simp [busy])⟩
  · rw [h]; exact ⟨{ e with sinkScript := es }, sinkAnswered_move _ a released busy⟩
  · rw [h]; exact ⟨{ e with sinkDraws := e.sinkDraws + 1 }, sinkAnswered_move _ a released busy⟩

/-- A released or absent level on the reset input is all that sampling it uses up. -/
theorem sampled_withEnvironment {s u : State}
    (h : s.resetInput = [] ∧ u = s ∨ ∃ ls, s.resetInput = .released :: ls ∧ u = { s with resetInput := ls }) :
    s.ResetReleased ∧ ∃ e, u = s.withEnvironment e := by
  obtain ⟨hin, rfl⟩ | ⟨ls, hin, rfl⟩ := h
  · exact ⟨by simp [State.ResetReleased, hin], u.environment, rfl⟩
  · exact ⟨by simp [State.ResetReleased, hin], { s.environment with resetInput := ls }, rfl⟩

/-- A step that answers a next state makes one of the moves. -/
theorem step_move {s t : State} (h : step s = .next t) : ∃ e, StepMove s e t := by
  obtain ⟨-, ⟨delivered, ls, hin, rfl⟩ | ⟨u, hu, hstep⟩⟩ := step_cases h
  · exact ⟨{ s.environment with resetInput := ls }, .reset delivered ls hin⟩
  · obtain ⟨released, e, rfl⟩ := sampled_withEnvironment hu
    obtain ⟨-, ho, rfl⟩ | ⟨r, rs, i, hp, ho, hd, hpr, he⟩ | ⟨b, rest, hp, rfl⟩ := hstep
    · exact ⟨e, .wait released fun _ => ho⟩
    · obtain ⟨f, taken, rfl, rfl | rfl, hf⟩ := exec_idle_frameOf (s := (s.withEnvironment e).takeOffer) hp he
      · exact ⟨e, accept_move e released hp ho hd hpr hf⟩
      · exact ⟨{ e with resizeScript := e.resizeScript.tail, resizeDraws := e.resizeDraws + 1 },
          accept_move _ released hp ho hd hpr hf⟩
    · exact emit_move e released hp

/-! ### The invariant -/

/-- Settles O57: the configured profile is the default one, and there is no request and no status. -/
theorem resetStateIsGood : Obligations.ResetStateIsGood where
  profile_configured := rfl
  profile_legal := by decide
  idle_iff_no_latch := ⟨fun _ => rfl, fun _ => rfl⟩
  no_response_while_busy := fun h => absurd rfl h
  response_is_last := nofun

/-- What the environment holds is no part of the invariant. -/
theorem Inv.withEnvironment {s : State} (h : Inv s) (e : Environment) : Inv (s.withEnvironment e) :=
  ⟨h.profile_configured, h.profile_legal, h.idle_iff_no_latch, h.no_response_while_busy, h.response_is_last⟩

/-- Ending a request leaves the latch empty and its status on the port, whatever was there. -/
theorem inv_respond {s : State} {st : Status} (configured : s.profile = s.config.profile)
    (legal : profileLegal s.profile = true) : Inv (s.respond st) where
  profile_configured := configured
  profile_legal := legal
  idle_iff_no_latch := by simp
  no_response_while_busy := by simp
  response_is_last := by simp

/-- A block that emits for a latched request, with no status on the port. -/
theorem inv_beginEmission {s : State} {b : Byte} {rest : List Byte} (configured : s.profile = s.config.profile)
    (legal : profileLegal s.profile = true) (latched : s.lat ≠ none) (silent : s.response = none) :
    Inv (s.beginEmission b rest) where
  profile_configured := configured
  profile_legal := legal
  idle_iff_no_latch := by simp [latched]
  no_response_while_busy := by simp [silent]
  response_is_last := by simp [silent]

theorem inv_hardwareReset {s : State} (legal : profileLegal s.config.profile = true) (delivered : Bool) :
    Inv (s.hardwareReset delivered) := by
  rw [State.hardwareReset_eq]
  exact ⟨rfl, legal, by simp, by simp, by simp⟩

theorem StepMove.inv {s t : State} {e : Environment} (h : StepMove s e t) (hs : Inv s) : Inv t := by
  have configured := hs.profile_configured
  have legal := hs.profile_legal
  cases h with
  | reset delivered => exact inv_hardwareReset (configured ▸ legal) delivered
  | wait => exact hs.withEnvironment e
  | acceptEnd => exact inv_respond configured legal
  | acceptFrame r rs i => exact inv_beginEmission configured legal (Option.some_ne_none i) rfl
  | emitNext b c rest _ busy =>
    have latched : s.lat ≠ none := by simp [← hs.idle_iff_no_latch, busy]
    have silent : s.response = none := hs.no_response_while_busy (by simp [busy])
    exact inv_beginEmission configured legal latched silent
  | emitEnd => exact inv_respond configured legal

theorem StepMove.config_eq {s t : State} {e : Environment} (h : StepMove s e t) : t.config = s.config := by
  cases h with
  | reset => simp [State.hardwareReset_eq]
  | _ => rfl

/-- Settles O58: the invariant is inductive, move by move. -/
theorem stepKeepsInvariant : Obligations.StepKeepsInvariant := by
  intro s t hs h
  obtain ⟨e, hm⟩ := step_move h
  exact ⟨hm.inv hs, hm.config_eq⟩

/-! ### The relation of R30 -/

/-- The byte in flight at a hardware reset, where there is one and it reached the printer (R230). -/
def resetBytes (delivered : Bool) (p : Phase) : List Byte :=
  match p with
  | .idle => []
  | .busy b _ => if delivered then [b] else []

theorem viewOf_hardwareReset (delivered : Bool) (s : State) :
    viewOf (s.hardwareReset delivered) =
      { viewOf s with
        profile := s.config.profile, phase := .idle, lat := none, hist := s.hist ++ resetBytes delivered s.phase } := by
  rw [State.hardwareReset_eq]
  rfl

/-- The draws that R230 allows for the byte in flight are those of the reset input. -/
theorem reset_draw_iff (p : Phase) (arrived : List Byte) :
    (arrived = [] ∨ ∃ b rest, p = .busy b rest ∧ arrived = [b]) ↔ ∃ delivered, arrived = resetBytes delivered p := by
  cases p <;> simp [resetBytes]

/-- Ending an acceptance shows the same view whether the block was put to Idle or was Idle already. -/
theorem viewOf_respond_idle {s : State} (idle : s.phase = .idle) (st : Status) :
    viewOf (s.respond st) = { viewOf s with lat := none, responses := s.responses ++ [st] } := by
  simp [viewOf, idle]

theorem StepMove.blockStep {s t : State} {e : Environment} (h : StepMove s e t) :
    BlockStep s.config (viewOf s) (viewOf t) ∨ viewOf t = viewOf s := by
  cases h with
  | reset delivered =>
    rw [viewOf_hardwareReset]
    exact .inl (.reset _ ((reset_draw_iff _ _).mpr ⟨delivered, rfl⟩))
  | wait => exact .inr rfl
  | acceptEnd r rs i st _ idle _ _ presentable frame =>
    rw [viewOf_respond_idle (s := (s.withEnvironment e).takeOffer.latch i) idle]
    obtain frame | ⟨frame, rfl⟩ := frame
    · exact .inl (.acceptError i st idle presentable frame)
    · exact .inl (.acceptEmpty i idle presentable frame)
  | acceptFrame r rs i b rest _ idle _ _ presentable frame => exact .inl (.acceptFrame i b rest idle presentable frame)
  | emitNext b c rest _ busy => exact .inl (.emitNext b c rest busy)
  | emitEnd b rest arrived st _ busy draw =>
    obtain ⟨rfl, rfl, rfl⟩ | ⟨draw, rfl⟩ := draw
    · exact .inl (.emitLast b busy)
    · exact .inl (.emitFailed b rest arrived busy draw)

/-- Settles O59: a wait shows nothing, and every other move is R30's or R230's of the same name. -/
theorem stepRefinesExecutionCycle : Obligations.StepRefinesExecutionCycle := by
  intro s t h
  obtain ⟨e, hm⟩ := step_move h
  exact hm.blockStep

/-! ### The sink history -/

/-- The relation of R30 appends the byte at the head of the frame, or nothing (R32). -/
theorem BlockStep.hist_eq {cfg : Config} {v v' : View} (h : BlockStep cfg v v') :
    v'.hist = v.hist ∨ ∃ b rest, v.phase = .busy b rest ∧ v'.hist = v.hist ++ [b] := by
  cases h with
  | acceptError => exact .inl rfl
  | acceptEmpty => exact .inl rfl
  | acceptFrame => exact .inl rfl
  | emitNext b c rest busy => exact .inr ⟨b, c :: rest, busy, rfl⟩
  | emitLast b busy => exact .inr ⟨b, [], busy, rfl⟩
  | emitFailed b rest arrived busy draw =>
    obtain rfl | rfl := draw
    · exact .inl (List.append_nil _)
    · exact .inr ⟨b, rest, busy, rfl⟩
  | reset arrived draw =>
    obtain rfl | ⟨b, rest, busy, rfl⟩ := draw
    · exact .inl (List.append_nil _)
    · exact .inr ⟨b, rest, busy, rfl⟩

/-- Settles O54: R30's relation appends one byte at most, and a step refines it. -/
theorem historyIsAppendOnly : Obligations.HistoryIsAppendOnly := by
  intro s t h
  obtain hb | hv := stepRefinesExecutionCycle s t h
  · exact hb.hist_eq
  · exact .inl (congrArg View.hist hv)

/-! ### The responses -/

/-- Settles O55: only the ends of a request by ACCEPT or EMIT respond, and they respond once. -/
theorem oneResponsePerRequest : Obligations.OneResponsePerRequest := by
  intro s t h
  obtain ⟨e, hm⟩ := step_move h
  cases hm with
  | reset delivered ls asserted =>
    exact ⟨.inl (by simp [State.hardwareReset_eq]), fun released => absurd asserted (released delivered ls)⟩
  | wait _ starved =>
    refine ⟨.inl rfl, fun _ idle started => ?_⟩
    obtain busy | ⟨r, rs, offered, -⟩ := started
    · exact absurd idle busy
    · simp [starved idle] at offered
  | acceptEnd r rs i st released idle offered =>
    have taken : (s.withEnvironment e).takeOffer.offers = rs := by simp [offered]
    exact ⟨.inr ⟨st, rfl, rfl, rfl, rfl, released, .inl ⟨r, rs, idle, offered, taken⟩⟩, fun _ _ _ => ⟨st, rfl⟩⟩
  | acceptFrame => exact ⟨.inl rfl, fun _ idle => nomatch idle⟩
  | emitNext => exact ⟨.inl rfl, fun _ idle => nomatch idle⟩
  | emitEnd b rest arrived st released busy =>
    exact ⟨.inr ⟨st, rfl, rfl, rfl, rfl, released, .inr ⟨b, rest, busy⟩⟩, fun _ _ _ => ⟨st, rfl⟩⟩

/-! ### The latch -/

/-- Settles O56: of the moves that begin and end Busy, a wait and the emission of a byte, neither writes the latch. -/
theorem latchIsReadOnlyWhileBusy : Obligations.LatchIsReadOnlyWhileBusy := by
  intro s t h busy busy'
  obtain ⟨e, hm⟩ := step_move h
  cases hm with
  | reset => exact absurd rfl busy'
  | wait => exact ⟨rfl, rfl⟩
  | acceptEnd r rs i st _ idle => exact absurd idle busy
  | acceptFrame r rs i b rest _ idle => exact absurd idle busy
  | emitNext => exact ⟨rfl, rfl⟩
  | emitEnd => exact absurd rfl busy'

/-! ### Statuses before emission -/

/-- Every request but RASTER is a framer request. -/
theorem raster_or_framerFrame (cfg : Config) (i : Instr) :
    (∃ img, i = .raster img) ∨ (∀ img, i ≠ .raster img) ∧ ∃ bytes, framerFrame cfg i = some bytes := by
  cases i <;> simp [framerFrame]

/-- RASTER ends in one of its three errors before emission, or has bytes to emit (R31, R208). -/
theorem frameOf_raster_cases {cfg : Config} {p : Profile} {img : Image} {f : FrameResult} (h : FrameOf cfg p (.raster img) f) :
    (∃ e, (e = .invalidImage ∨ e = .scaleUnderflow ∨ e = .headerOverflow) ∧ f = .error e) ∨
    ∃ b rest, f = .ok (b :: rest) := by
  have error : ∀ e, rasterPlan cfg p img.width img.height = .error e → f = .error e :=
    fun e hp => (frameOf_raster_error hp f).mp h
  obtain ⟨-, hp⟩ | ⟨-, -, hp | hp | ⟨plan, hp, -, -⟩⟩ := rasterPlan_cases cfg p img.width img.height
  · exact .inl ⟨_, .inl rfl, error _ hp⟩
  · exact .inl ⟨_, .inr (.inl rfl), error _ hp⟩
  · exact .inl ⟨_, .inr (.inr rfl), error _ hp⟩
  · obtain ⟨resized, rfl⟩ := (frameOf_raster_ok hp f).mp h
    exact .inr ⟨_, _, congrArg Except.ok (planFrame_eq_cons _ plan)⟩

/-- Settles O23: the frame of the request decides, and only RASTER's may be an error. -/
theorem preEmissionStatuses : Obligations.PreEmissionStatuses := by
  intro i s t idle he
  obtain ⟨f, taken, rfl, htaken, hf⟩ := exec_idle_frameOf idle he
  have responses : taken.responses = s.responses := by obtain rfl | rfl := htaken <;> rfl
  rw [← responses]
  obtain ⟨img, rfl⟩ | ⟨notRaster, bytes, hb⟩ := raster_or_framerFrame s.config i
  · obtain ⟨e, cause, rfl⟩ | ⟨b, rest, rfl⟩ := frameOf_raster_cases hf
    · exact .inr ⟨rfl, .inr ⟨⟨img, rfl⟩, e, cause, rfl⟩⟩
    · exact .inl rfl
  · obtain rfl := (frameOf_framer hb _ f).mp hf
    cases bytes with
    | nil => exact .inr ⟨rfl, .inl ⟨notRaster, rfl⟩⟩
    | cons b rest => exact .inl rfl

/-! ### The request port -/

/-- Settles O20: whatever its frame would be, a request offered while Busy is put on the port. -/
theorem busyBlockLeavesRequestWaiting : Obligations.BusyBlockLeavesRequestWaiting := by
  intro i s b rest busy
  obtain ⟨f, taken, he, -, -⟩ := exec_eq_offerRequest i s
  rw [he, offerRequest_busy _ _ _ _ b rest busy]
  rfl

theorem takeOffer_of_offers {s : State} {r : Request} {rs : List Request} (h : s.offers = r :: rs) :
    s.takeOffer = { s with offers := rs } := by
  simp [State.takeOffer, h]

/-- Settles O46: the port admits the record, and the step is the request's `exec` once the record is taken. -/
theorem stepRunsTheOfferedRequest : Obligations.StepRunsTheOfferedRequest := by
  intro s r rs i legal idle offered decoded formed fits
  have run : ∀ u : State, u.config = s.config → u.phase = .idle → u.offers = r :: rs →
      runStep u = exec i { u with offers := rs } := by
    intro u hc hp ho
    have admitted : admitRequest u.config r = .ok i :=
      (admitRequest_ok_iff _ _ _).mpr ⟨decoded, formed, hc ▸ fits⟩
    rw [runStep_offer u r rs i hp ho admitted, takeOffer_of_offers ho]
  constructor
  · intro hin
    rw [step_no_reset s legal hin, run s rfl idle offered]
  · intro ls hin
    rw [step_released s _ legal (s.sampleReset_cons _ ls hin)]
    exact run _ rfl idle offered

/-! ### EMIT -/

theorem step_of_sampled {s u : State} (legal : profileLegal s.profile = true)
    (h : s.resetInput = [] ∧ u = s ∨ ∃ ls, s.resetInput = .released :: ls ∧ u = { s with resetInput := ls }) :
    step s = runStep u := by
  obtain ⟨hin, rfl⟩ | ⟨ls, hin, rfl⟩ := h
  · exact step_no_reset u legal hin
  · exact step_released s _ legal (s.sampleReset_cons _ ls hin)

theorem emit_waits {s : State} {es : List SinkEvent} (h : s.sinkScript = .waits :: es) (b : Byte) (rest : List Byte) :
    s.emit b rest = { s with sinkScript := es } := by
  simp [State.emit, h]

theorem emit_scripted {s : State} {a : SinkAnswer} {es : List SinkEvent} (h : s.sinkScript = .answers a :: es) (b : Byte)
    (rest : List Byte) : s.emit b rest = State.sinkAnswered b rest a { s with sinkScript := es } := by
  simp [State.emit, h]

theorem emit_free {s : State} (h : s.sinkScript = []) (b : Byte) (rest : List Byte) :
    s.emit b rest = State.sinkAnswered b rest (Config.sinkAnswer s.sinkDraws s.hist b)
      { s with sinkDraws := s.sinkDraws + 1 } := by
  simp [State.emit, h]

/-- Settles O41: EMIT takes the sink's answer, from the script or freely, and the answer decides the next state. -/
theorem emitFollowsTheSink : Obligations.EmitFollowsTheSink := by
  intro s u b rest legal busy sampled
  have hstep : step s = runStep u := step_of_sampled legal sampled
  obtain ⟨hscript, hdraws⟩ : u.sinkScript = s.sinkScript ∧ u.sinkDraws = s.sinkDraws := by
    obtain ⟨-, rfl⟩ | ⟨ls, -, rfl⟩ := sampled <;> exact ⟨rfl, rfl⟩
  obtain ⟨-, e, rfl⟩ := sampled_withEnvironment sampled
  rw [hstep, runStep_busy (s.withEnvironment e) b rest busy]
  refine ⟨fun es hes => by rw [emit_waits (hscript.trans hes)], fun a v hv => ?_⟩
  obtain ⟨hemit, hhist, hresponses⟩ : (s.withEnvironment e).emit b rest = v.sinkAnswered b rest a ∧
      v.hist = s.hist ∧ v.responses = s.responses := by
    obtain ⟨es, hes, rfl⟩ | ⟨hes, rfl, rfl⟩ := hv
    · exact ⟨emit_scripted (hscript.trans hes) b rest, rfl, rfl⟩
    · refine ⟨?_, rfl, rfl⟩
      rw [emit_free (hscript.trans hes), hdraws]
      rfl
  rw [hemit, ← hhist, ← hresponses]
  refine ⟨?_, ?_, ?_⟩
  · rintro c cs rfl rfl
    rfl
  · rintro rfl rfl
    rfl
  · rintro delivered rfl
    exact congrArg Host.Outcome.next (State.byteFailed_eq b delivered v)

/-! ### Reset and ready -/

/-- Settles O51: the values are `State.reset`'s own. -/
theorem resetStateValues : Obligations.ResetStateValues :=
  ⟨rfl, rfl, rfl, rfl, rfl, rfl, rfl⟩

theorem ready_iff (s : State) : s.ready = true ↔ s.phase = .idle := by
  cases h : s.phase <;> simp [State.ready, h]

/-- Settles O52: a hardware reset leads to Idle from every state. -/
theorem readyExactlyWhenIdle : Obligations.ReadyExactlyWhenIdle :=
  ⟨ready_iff, rfl, fun s delivered => (ready_iff _).mpr (by rw [State.hardwareReset_eq])⟩

/-! ### Every move of R30 is a step -/

theorem decode_encode (i : Instr) : decode (encode i) = .ok i := by
  cases i with
  | mode m => exact congrArg (Except.map Instr.mode) (decodeByte_toNat m)
  | spacing n => exact congrArg (Except.map Instr.spacing) (decodeByte_toNat n)
  | feed n => exact congrArg (Except.map Instr.feed) (decodeCount_natCast n)
  | _ => rfl

/-- The packer reads the pixels of the resize target in the payload's rows, and no others (R167). -/
theorem rasterPayload_congr {px qx : Nat → Nat → Pixel} {wr pr : Nat} (pb : Nat)
    (h : ∀ x y, x < wr → y < pr → px x y = qx x y) : rasterPayload px wr pb pr = rasterPayload qx wr pb pr := by
  have packed : ∀ j y, y < pr → packByte px wr j y = packByte qx wr j y := by
    intro j y hy
    have pixel : ∀ x, packedPixel px wr x y = packedPixel qx wr x y := by
      intro x
      by_cases hx : x < wr
      · simp only [packedPixel_inside _ _ _ _ hx, h x y hx hy]
      · simp only [packedPixel_beyond _ _ _ _ hx]
    simp only [packByte, pixel]
  exact List.flatMap_congr fun y hy => List.map_congr_left fun j _ => packed j y (List.mem_range.mp hy)

/-- An answer of the image source that lists these pixels. -/
def listedPixels (w h : Nat) (px : Nat → Nat → Pixel) : Content :=
  .rows ((List.range h).map fun y => (List.range w).map fun x => px x y)

theorem contentPixel?_listedPixels {w h x y : Nat} (px : Nat → Nat → Pixel) (hx : x < w) (hy : y < h) :
    contentPixel? (listedPixels w h px) x y = some (px x y) := by
  simp [contentPixel?, listedPixels, hx, hy]

/-- Whatever pixels R156 lets `Resize` answer, the image source can list those that RASTER reads. -/
theorem rasterFrame_of_listedPixels {s : State} {img : Image} {plan : RasterPlan} (resized : Nat → Nat → Pixel)
    (hp : rasterPlan s.config s.profile img.width img.height = .ok plan)
    (hs : s.resizeScript = [listedPixels plan.targetWidth plan.counts.payloadRows resized]) :
    rasterFrame img s =
      .ok (planFrame (fun x y => if bypassesResize img plan then pixelRead img x y else resized x y) plan) := by
  have pixels : ∀ x y, x < plan.targetWidth → y < plan.counts.payloadRows →
      chosenPixels s img plan x y = if bypassesResize img plan then pixelRead img x y else resized x y := by
    intro x y hx hy
    simp [chosenPixels, resizedRead, hs, contentPixel?_listedPixels resized hx hy]
  simp only [rasterFrame, hp, planFrame, rasterPayload_congr _ pixels]

/-- Each frame a request can have is the one an Idle block computes, for some answer of the image source. -/
theorem exec_of_frameOf {cfg : Config} {p : Profile} {i : Instr} {f : FrameResult} (h : FrameOf cfg p i f) :
    ∃ script, ∀ s : State, s.config = cfg → s.profile = p → s.phase = .idle → s.resizeScript = script →
      ∃ taken, exec i s = .next (taken.accept i f) ∧ (taken = s ∨ taken = s.takeResize) := by
  have raster : ∀ img (s : State), s.phase = .idle → rasterFrame img s = f →
      ∃ taken, exec (.raster img) s = .next (taken.accept (.raster img) f) ∧ (taken = s ∨ taken = s.takeResize) := by
    rintro img s idle rfl
    exact ⟨_, execRaster_idle img s idle, afterResize_cases img s⟩
  obtain ⟨img, rfl⟩ | ⟨-, bytes, hb⟩ := raster_or_framerFrame cfg i
  · cases hp : rasterPlan cfg p img.width img.height with
    | error e =>
      obtain rfl := (frameOf_raster_error hp f).mp h
      refine ⟨[], ?_⟩
      rintro s rfl rfl idle -
      exact raster img s idle (by simp [rasterFrame, hp])
    | ok plan =>
      obtain ⟨resized, rfl⟩ := (frameOf_raster_ok hp f).mp h
      refine ⟨[listedPixels plan.targetWidth plan.counts.payloadRows resized], ?_⟩
      rintro s rfl rfl idle hs
      exact raster img s idle (rasterFrame_of_listedPixels resized hp hs)
  · obtain rfl := (frameOf_framer hb _ f).mp h
    refine ⟨[], ?_⟩
    rintro s rfl - idle -
    exact ⟨s, exec_framer_idle i s bytes hb idle, .inl rfl⟩

/-- A block with these parameters that shows this view, its environment with nothing in hand. -/
def View.toState (cfg : Config) (v : View) : State :=
  { State.reset with
    config := cfg, profile := v.profile, phase := v.phase, lat := v.lat, hist := v.hist, responses := v.responses }

/-- An Idle block can be offered any presentable request, and accept it with any of its frames. -/
theorem step_accepts {cfg : Config} {v : View} {i : Instr} {f : FrameResult} (legal : profileLegal v.profile = true)
    (idle : v.phase = .idle) (presentable : Presentable cfg i) (frame : FrameOf cfg v.profile i f) :
    ∃ s taken : State, s.config = cfg ∧ viewOf s = v ∧ step s = .next (taken.accept i f) ∧ viewOf taken = v := by
  obtain ⟨script, hexec⟩ := exec_of_frameOf frame
  let s : State := { v.toState cfg with offers := [encode i], resizeScript := script }
  obtain ⟨taken, he, htaken⟩ := hexec s.takeOffer rfl rfl idle rfl
  have admitted : admitRequest s.config (encode i) = .ok i :=
    (admitRequest_ok_iff _ _ _).mpr ⟨decode_encode i, presentable⟩
  refine ⟨s, taken, rfl, rfl, ?_, ?_⟩
  · rw [step_no_reset s legal rfl, runStep_offer s _ [] i idle rfl admitted, he]
  · obtain rfl | rfl := htaken <;> rfl

/-- A Busy block can be given any answer of the sink. -/
theorem step_emits {cfg : Config} {v : View} {b : Byte} {rest : List Byte} (legal : profileLegal v.profile = true)
    (busy : v.phase = .busy b rest) (a : SinkAnswer) :
    ∃ s u : State, s.config = cfg ∧ viewOf s = v ∧ step s = .next (u.sinkAnswered b rest a) ∧ viewOf u = v := by
  let s : State := { v.toState cfg with sinkScript := [.answers a] }
  refine ⟨s, { s with sinkScript := [] }, rfl, rfl, ?_, rfl⟩
  rw [step_no_reset s legal rfl, runStep_busy s b rest busy]
  rfl

/-- Settles O60: for each move, an environment that offers, answers or resets accordingly. -/
theorem executionCycleMovesAreSteps : Obligations.ExecutionCycleMovesAreSteps := by
  intro cfg v v' legal move
  cases move with
  | acceptError i e idle presentable frame =>
    obtain ⟨s, taken, hc, hs, hstep, rfl⟩ := step_accepts legal idle presentable frame
    exact ⟨s, _, hc, hs, hstep, viewOf_respond_idle (s := taken.latch i) idle e⟩
  | acceptEmpty i idle presentable frame =>
    obtain ⟨s, taken, hc, hs, hstep, rfl⟩ := step_accepts legal idle presentable frame
    exact ⟨s, _, hc, hs, hstep, viewOf_respond_idle (s := taken.latch i) idle .ok⟩
  | acceptFrame i b rest idle presentable frame =>
    obtain ⟨s, taken, hc, hs, hstep, rfl⟩ := step_accepts legal idle presentable frame
    exact ⟨s, _, hc, hs, hstep, rfl⟩
  | emitNext b c rest busy =>
    obtain ⟨s, u, hc, hs, hstep, rfl⟩ := step_emits (cfg := cfg) legal busy .accepted
    exact ⟨s, _, hc, hs, hstep, rfl⟩
  | emitLast b busy =>
    obtain ⟨s, u, hc, hs, hstep, rfl⟩ := step_emits (cfg := cfg) legal busy .accepted
    exact ⟨s, _, hc, hs, hstep, rfl⟩
  | emitFailed b rest arrived busy draw =>
    obtain ⟨delivered, rfl⟩ : ∃ delivered : Bool, arrived = if delivered then [b] else [] := by
      obtain rfl | rfl := draw
      · exact ⟨false, rfl⟩
      · exact ⟨true, rfl⟩
    obtain ⟨s, u, hc, hs, hstep, rfl⟩ := step_emits (cfg := cfg) legal busy (.failed delivered)
    exact ⟨s, _, hc, hs, hstep, congrArg viewOf (State.byteFailed_eq b delivered u)⟩
  | reset arrived draw =>
    obtain ⟨delivered, rfl⟩ := (reset_draw_iff _ _).mp draw
    let s : State := { v.toState cfg with resetInput := [.asserted delivered] }
    exact ⟨s, _, rfl, rfl, step_asserted s _ delivered legal rfl, viewOf_hardwareReset _ _⟩

end Sys2Proof.Machine
end

