-- ==== Sys2Proof/Proofs/ImageReads.lean ====
section
/-! SUPPORT. Which pixels are read: a well-formed image lists all of its own (R52), and the packer takes no other than those of the
columns and rows it sends (R167). -/

namespace Sys2Proof.Machine

/-! ### A well-formed image -/

/-- The pixels of a well-formed image fill its rectangle (R51). -/
theorem contentPixel?_of_wellFormed {img : Image} {x y : Nat} (formed : img.wellFormed = true) (hx : x < img.width)
    (hy : y < img.height) : ∃ p, contentPixel? img.content x y = some p := by
  cases hc : img.content with
  | uniform p => exact ⟨p, rfl⟩
  | rows rs =>
    obtain ⟨rowCount, rowLength⟩ : rs.length = img.height ∧ ∀ r ∈ rs, r.length = img.width := by
      simpa [Image.wellFormed, hc] using formed
    have hrow : y < rs.length := rowCount ▸ hy
    have hcol : x < rs[y].length := rowLength rs[y] (List.getElem_mem hrow) ▸ hx
    exact ⟨rs[y][x], by simp [contentPixel?, hrow, hcol]⟩

/-- Inside the image, what the content lists is what is read. -/
theorem pixelRead_of_listed {img : Image} {x y : Nat} {p : Pixel} (hx : x < img.width) (hy : y < img.height)
    (listed : contentPixel? img.content x y = some p) : pixelRead img x y = p := by
  simp [pixelRead, hx, hy, listed]

/-- Settles O39: a well-formed image lists the pixel, and the read answers what is listed. -/
theorem wellFormedImageIsFullyRead : Obligations.WellFormedImageIsFullyRead := by
  intro img x y formed hx hy
  obtain ⟨p, listed⟩ := contentPixel?_of_wellFormed formed hx hy
  rw [listed, pixelRead_of_listed hx hy listed]

/-! ### The packer -/

/-- A row of `pb` bytes has `8 pb` columns, so a width beyond them changes no byte of it. -/
theorem packByte_clipWidth (px : Nat → Nat → Pixel) (wr : Nat) {pb j : Nat} (hj : j < pb) (y : Nat) :
    packByte px wr j y = packByte px (min wr (8 * pb)) j y := by
  refine List.foldl_ext _ _ _ fun byte k hk => ?_
  have hcol : 8 * j + k < 8 * pb := by
    have := List.mem_range.mp hk
    omega
  simp only [packedPixel, Nat.lt_min, hcol, and_true]

theorem rasterPayload_clipWidth (px : Nat → Nat → Pixel) (wr pb pr : Nat) :
    rasterPayload px wr pb pr = rasterPayload px (min wr (8 * pb)) pb pr :=
  List.flatMap_congr fun y _ => List.map_congr_left fun _ hj => packByte_clipWidth px wr (List.mem_range.mp hj) y

/-- Settles O38: the payload is that of the width clipped to the bytes sent, and reads that width only. -/
theorem packerReadsOnlyInside : Obligations.PackerReadsOnlyInside := by
  intro px qx wr pb pr agree
  calc rasterPayload px wr pb pr
      = rasterPayload px (min wr (8 * pb)) pb pr := rasterPayload_clipWidth px wr pb pr
    _ = rasterPayload qx (min wr (8 * pb)) pb pr := rasterPayload_congr pb fun x y hx hy =>
        agree x y (Nat.lt_min.mp hx).1 (Nat.lt_min.mp hx).2 hy
    _ = rasterPayload qx wr pb pr := (rasterPayload_clipWidth qx wr pb pr).symm

end Sys2Proof.Machine
end

