-- ==== Sys2Proof/Proofs/Emission.lean ====
section
/-! SUPPORT. Runs of the block without a reset: a frame emitted to its end (R65, R70), and a job of framer requests, one frame after
the other (R64). -/

namespace Sys2Proof.Machine

theorem step_busy {s : State} {b : Byte} {rest : List Byte} (legal : profileLegal s.profile = true)
    (noReset : s.resetInput = []) (busy : s.phase = .busy b rest) : step s = .next (s.emit b rest) := by
  rw [step_no_reset s legal noReset, runStep_busy s b rest busy]

/-! ### An accepting sink -/

/-- Settles O42, by induction on the bytes left: each step appends the byte at the head, and the last one answers OK. -/
theorem acceptedFrameIsEmittedWhole : Obligations.AcceptedFrameIsEmittedWhole := by
  intro s b rest es legal noReset busy script
  induction rest generalizing s b with
  | nil =>
    rw [runSteps_succ _ (step_busy legal noReset busy), State.emit_accepted_last b es s script]
    rfl
  | cons c rest ih =>
    have script' : s.sinkScript =
        .answers .accepted :: (List.replicate (rest.length + 1) (.answers .accepted) ++ es) := script
    rw [List.length_cons, runSteps_succ _ (step_busy legal noReset busy), State.emit_accepted_cons b c rest _ s script']
    simpa using ih { s with
        sinkScript := List.replicate (rest.length + 1) (.answers .accepted) ++ es
        hist := s.hist ++ [b]
        phase := .busy c rest } c legal noReset rfl rfl

/-! ### Any sink -/

/-- The waits of the sink still to come. -/
def pendingWaits (es : List SinkEvent) : Nat :=
  es.countP (fun e => decide (e = .waits))

@[simp] theorem pendingWaits_nil : pendingWaits [] = 0 := rfl

@[simp] theorem pendingWaits_waits (es : List SinkEvent) : pendingWaits (.waits :: es) = pendingWaits es + 1 := by
  simp [pendingWaits]

@[simp] theorem pendingWaits_answers (a : SinkAnswer) (es : List SinkEvent) :
    pendingWaits (.answers a :: es) = pendingWaits es := by
  simp [pendingWaits]

/-- `t` is Idle, and has ended the request that had these bytes left in `s`: with OK and all of them in the history, or with
TRANSPORT_WRITE and some of them (R30, R207). -/
def RequestEnded (s : State) (left : List Byte) (t : State) : Prop :=
  t.phase = .idle ∧
  (t.responses = s.responses ++ [.ok] ∧ t.hist = s.hist ++ left ∨
   t.responses = s.responses ++ [.transportWrite] ∧ s.hist <+: t.hist ∧ t.hist <+: s.hist ++ left)

/-- The end of a request seen from one byte earlier. -/
theorem RequestEnded.of_appended {s u t : State} {b : Byte} {left : List Byte} (h : RequestEnded u left t)
    (hhist : u.hist = s.hist ++ [b]) (hresponses : u.responses = s.responses) : RequestEnded s (b :: left) t := by
  obtain ⟨idle, h⟩ := h
  rw [hhist, hresponses, List.append_assoc, List.singleton_append] at h
  obtain hok | ⟨hfailed, before, after⟩ := h
  · exact ⟨idle, .inl hok⟩
  · exact ⟨idle, .inr ⟨hfailed, List.IsPrefix.trans ⟨[b], rfl⟩ before, after⟩⟩

/-- EMIT uses up a wait of the sink, or it takes an answer and no wait. -/
theorem emit_waits_or_answers (b : Byte) (rest : List Byte) (s : State) :
    (∃ es, s.sinkScript = .waits :: es ∧ s.emit b rest = { s with sinkScript := es }) ∨
    ∃ a es draws, pendingWaits es = pendingWaits s.sinkScript ∧
      s.emit b rest = State.sinkAnswered b rest a { s with sinkScript := es, sinkDraws := draws } := by
  obtain h | ⟨a, es, hes, h⟩ | ⟨a, hes, h⟩ := State.emit_cases b rest s
  · exact .inl h
  · exact .inr ⟨a, es, s.sinkDraws, by simp [hes], h⟩
  · exact .inr ⟨a, s.sinkScript, s.sinkDraws + 1, rfl, h⟩

/-- The sink's answer appends the byte at the head and the frame goes on, or it ends the request. -/
theorem sinkAnswered_next_or_ended (b : Byte) (rest : List Byte) (a : SinkAnswer) (s : State) :
    (∃ c cs, rest = c :: cs ∧ s.sinkAnswered b rest a = (s.appendHist b).beginEmission c cs) ∨
    RequestEnded s (b :: rest) (s.sinkAnswered b rest a) := by
  obtain ⟨-, h⟩ | ⟨-, rfl, h⟩ | ⟨delivered, -, h⟩ := State.sinkAnswered_cases b rest a s
  · exact .inl h
  · rw [h]
    exact .inr ⟨rfl, .inl ⟨rfl, rfl⟩⟩
  · rw [h]
    refine .inr ⟨rfl, .inr ⟨rfl, ⟨_, rfl⟩, ?_⟩⟩
    cases delivered <;> simp

/-- An EMIT ends the request, or leaves a block whose end is the end of this request, with one byte or one wait less before it. -/
theorem emit_ends_or_nearer {s : State} {b : Byte} {rest : List Byte} (busy : s.phase = .busy b rest) :
    RequestEnded s (b :: rest) (s.emit b rest) ∨
    ∃ c cs, (s.emit b rest).phase = .busy c cs ∧
      (s.emit b rest).profile = s.profile ∧ (s.emit b rest).resetInput = s.resetInput ∧
      cs.length + pendingWaits (s.emit b rest).sinkScript + 1 = rest.length + pendingWaits s.sinkScript ∧
      ∀ t, RequestEnded (s.emit b rest) (c :: cs) t → RequestEnded s (b :: rest) t := by
  obtain ⟨es, hes, h⟩ | ⟨a, es, draws, hes, h⟩ := emit_waits_or_answers b rest s
  · rw [h, hes, pendingWaits_waits]
    exact .inr ⟨b, rest, busy, rfl, rfl, rfl, fun _ ended => ended⟩
  · rw [h, ← hes]
    obtain ⟨c, cs, rfl, h'⟩ | ended :=
      sinkAnswered_next_or_ended b rest a { s with sinkScript := es, sinkDraws := draws }
    · rw [h', List.length_cons, Nat.add_right_comm]
      exact .inr ⟨c, cs, rfl, rfl, rfl, rfl, fun _ ended => ended.of_appended rfl rfl⟩
    · exact .inl ended

/-- The bytes left and the waits to come, together, bound the steps to the end of the request: every step uses up one of them. -/
theorem runSteps_requestEnded (k : Nat) {s : State} {b : Byte} {rest : List Byte} (legal : profileLegal s.profile = true)
    (noReset : s.resetInput = []) (busy : s.phase = .busy b rest)
    (bound : rest.length + 1 + pendingWaits s.sinkScript ≤ k) :
    ∃ n t, n ≤ k ∧ runSteps n s = .next t ∧ RequestEnded s (b :: rest) t := by
  induction k generalizing s b rest with
  | zero => omega
  | succ k ih =>
    have hstep := step_busy legal noReset busy
    obtain ended | ⟨c, cs, busy', hprofile, hreset, hwork, earlier⟩ := emit_ends_or_nearer busy
    · exact ⟨1, _, by omega, runSteps_succ 0 hstep, ended⟩
    · obtain ⟨n, t, hn, hrun, ended⟩ := ih (hprofile ▸ legal) (hreset.trans noReset) busy' (by omega)
      exact ⟨n + 1, t, by omega, (runSteps_succ n hstep).trans hrun, earlier t ended⟩

/-- Settles O44: the bound on the steps, taken at the bytes left and the waits scripted. -/
theorem everyRequestEnds : Obligations.EveryRequestEnds := by
  intro s b rest legal noReset busy
  exact runSteps_requestEnded _ legal noReset busy le_rfl

/-! ### A job -/

/-- The block once the request at the port is taken off it and ended with OK, these bytes printed: what is left on the port and of the
sink's script is given. -/
def State.requestPrinted (bytes : List Byte) (later : List Request) (es : List SinkEvent) (s : State) : State :=
  { s with
    offers := later, sinkScript := es, hist := s.hist ++ bytes, phase := .idle, lat := none,
    response := some .ok, responses := s.responses ++ [.ok] }

/-- One request of a job: a step to accept it, and one to emit each byte of its frame. -/
theorem runSteps_framerRequest {s : State} {i : Instr} {bytes : List Byte} {later : List Request} {es : List SinkEvent}
    (legal : profileLegal s.profile = true) (noReset : s.resetInput = []) (idle : s.phase = .idle)
    (presentable : Presentable s.config i) (frame : framerFrame s.config i = some bytes)
    (offered : s.offers = encode i :: later)
    (script : s.sinkScript = List.replicate bytes.length (.answers .accepted) ++ es) :
    runSteps (1 + bytes.length) s = .next (s.requestPrinted bytes later es) := by
  obtain ⟨formed, fits⟩ := presentable
  have hstep : step s = .next (State.accept i (.ok bytes) { s with offers := later }) := by
    rw [(stepRunsTheOfferedRequest s _ later i legal idle offered (decode_encode i) formed fits).1 noReset,
      exec_framer_idle i { s with offers := later } bytes frame idle]
  rw [runSteps_add (runSteps_succ 0 hstep)]
  cases bytes with
  | nil =>
    obtain rfl : s.sinkScript = es := script
    simp [runSteps_zero, State.accept_empty, State.requestPrinted]
  | cons b rest =>
    rw [State.accept_cons]
    exact acceptedFrameIsEmittedWhole _ b rest es legal noReset rfl script

theorem jobBytes_cons {cfg : Config} {i : Instr} {bytes : List Byte} (frame : framerFrame cfg i = some bytes)
    (job : List Instr) : jobBytes cfg (i :: job) = bytes ++ jobBytes cfg job := by
  simp [jobBytes, frame]

/-- Settles O45, by induction on the job: its first request is run to its end, and leaves the block with the rest of the job. -/
theorem jobPrintsFramesInOrder : Obligations.JobPrintsFramesInOrder := by
  intro job s later es legal noReset idle unlatched requests offered script
  induction job generalizing s with
  | nil =>
    obtain rfl : s.offers = later := offered
    obtain rfl : s.sinkScript = es := script
    simp [runSteps_zero, jobBytes]
  | cons i job ih =>
    obtain ⟨presentable, bytes, frame⟩ := requests i List.mem_cons_self
    rw [jobBytes_cons frame, List.length_append, List.replicate_add, List.append_assoc] at script
    have first := runSteps_framerRequest legal noReset idle presentable frame offered script
    have count : (i :: job).length + (jobBytes s.config (i :: job)).length =
        (1 + bytes.length) + (job.length + (jobBytes s.config job).length) := by
      rw [jobBytes_cons frame, List.length_append, List.length_cons]
      omega
    have remaining := ih (s.requestPrinted bytes _ (List.replicate (jobBytes s.config job).length (.answers .accepted) ++ es))
      legal noReset rfl rfl (fun j hj => requests j (List.mem_cons_of_mem i hj)) rfl rfl
    rw [count, runSteps_add first]
    refine remaining.trans ?_
    simp [State.requestPrinted, jobBytes_cons frame, List.replicate_succ, idle, unlatched]

end Sys2Proof.Machine
end

