-- ==== Sys2Proof/Proofs/PrinterCommands.lean ====
section
/-! SUPPORT. The printer commands on the wire: a command's bytes give it back (R91, R92), and an accepted request starts to emit the
commands of R91's map. -/

namespace Sys2Proof.Machine

/-! ### A command from its bytes -/

/-- The leading bytes of R91's map begin with 1B, 1D or 0A; any other bytes are a text line. -/
theorem decodeFrame_eq_decodeTextLine {bs : List Byte} (h : ∀ b ∈ bs.head?, b ≠ 0x1B ∧ b ≠ 0x1D ∧ b ≠ 0x0A) :
    decodeFrame bs = decodeTextLine bs := by
  unfold decodeFrame
  split <;> simp at h ⊢

theorem frameReadable_gsVZero_iff (rb rc : BitVec 16) (payload : List Byte) :
    frameReadable (.gsVZero rb rc payload) = true ↔ payload.length = rb.toNat * rc.toNat :=
  decide_eq_true_iff

/-- A readable text line has no `0A` and begins like no other command. -/
theorem frameReadable_textLine_iff (bytes : List Byte) :
    frameReadable (.textLine bytes) = true ↔ (∀ b ∈ bytes, b ≠ 0x0A) ∧ ∀ b ∈ bytes.head?, b ≠ 0x1B ∧ b ≠ 0x1D := by
  cases bytes <;> simp [frameReadable]

theorem decodeFrame_textLine {bytes : List Byte} (closed : ∀ b ∈ bytes, b ≠ 0x0A)
    (start : ∀ b ∈ bytes.head?, b ≠ 0x1B ∧ b ≠ 0x1D) (after : List Byte) :
    decodeFrame (encodeFrame (.textLine bytes) ++ after) = .ok (.textLine bytes, after) := by
  have bytesEq : encodeFrame (.textLine bytes) ++ after = bytes ++ 0x0D :: 0x0A :: after := by simp [encodeFrame]
  have first : ∀ b ∈ (bytes ++ 0x0D :: 0x0A :: after).head?, b ≠ 0x1B ∧ b ≠ 0x1D ∧ b ≠ 0x0A := by
    cases bytes with
    | nil => simp
    | cons b bs => simp_all
  rw [bytesEq, decodeFrame_eq_decodeTextLine first, decodeTextLine, splitTextLine_closed bytes after closed]
  rfl

theorem decodeFrame_gsVZero {rb rc : BitVec 16} {payload : List Byte} (announced : payload.length = rb.toNat * rc.toNat)
    (after : List Byte) :
    decodeFrame (encodeFrame (.gsVZero rb rc payload) ++ after) = .ok (.gsVZero rb rc payload, after) := by
  have layout : encodeFrame (.gsVZero rb rc payload) ++ after =
      0x1D :: 0x76 :: 0x30 :: 0x00 :: lowByte rb :: highByte rb :: lowByte rc :: highByte rc ::
        (payload ++ 0x0A :: after) := by simp [encodeFrame]
  rw [layout]
  change decodeRasterBody (word16 (lowByte rb) (highByte rb)) (word16 (lowByte rc) (highByte rc)) _ = _
  rw [word16_lowByte_highByte, word16_lowByte_highByte, decodeRasterBody_closed rb rc payload after announced]

/-- Settles O6, command by command: the leading bytes tell the commands apart, a raster header tells where the command ends, and
a text line ends at its first 0A. -/
theorem commandBytesDecode : Obligations.CommandBytesDecode := by
  intro f after readable
  cases f with
  | gsVZero rb rc payload => exact decodeFrame_gsVZero ((frameReadable_gsVZero_iff rb rc payload).mp readable) after
  | textLine bytes =>
    obtain ⟨closed, start⟩ := (frameReadable_textLine_iff bytes).mp readable
    exact decodeFrame_textLine closed start after
  | _ => rfl

/-! ### The raster command -/

@[simp] theorem rasterPayload_length (px : Nat → Nat → Pixel) (wr pb pr : Nat) :
    (rasterPayload px wr pb pr).length = pb * pr := by
  simp [rasterPayload, Nat.mul_comm]

theorem toNat_ofNat_of_le_65535 {n : Nat} (h : n ≤ 65535) : (BitVec.ofNat 16 n).toNat = n :=
  Nat.mod_eq_of_lt (by omega)

/-- Settles O7: the frame is a readable raster command, since its counts lose nothing in 16 bits. -/
theorem rasterFrameReadsBack : Obligations.RasterFrameReadsBack := by
  intro px wr h1 pb pr after hpb hpr
  have bytes := toNat_ofNat_of_le_65535 hpb
  have rows := toNat_ofNat_of_le_65535 hpr
  have payload := rasterPayload_length px wr pb pr
  refine ⟨?_, bytes, rows, payload⟩
  rw [planFrame_eq_encodeFrame]
  exact decodeFrame_gsVZero (by rw [bytes, rows, payload]) after

/-- The header announces the payload's counts before they are masked to 16 bits, and every policy but Preserve keeps them within
16 bits (R165). -/
theorem rasterCounts_header {policy : HeaderOverflow} {bpr h1 : Nat} {k : RasterCounts}
    (h : rasterCounts policy bpr h1 = some k) :
    k.headerBytes = k.payloadBytes ∧ k.headerRows = k.payloadRows ∧
      (policy ≠ .preserve → k.payloadBytes ≤ 65535 ∧ k.payloadRows ≤ 65535) := by
  cases policy with
  | preserve => cases h; exact ⟨rfl, rfl, fun hne => absurd rfl hne⟩
  | reject =>
    simp only [rasterCounts] at h
    split at h
    · cases h
    · cases h; exact ⟨rfl, rfl, fun _ => by dsimp only; omega⟩
  | clamp => cases h; exact ⟨rfl, rfl, fun _ => ⟨min_le_right _ _, min_le_right _ _⟩⟩

theorem rasterPlan_counts {cfg : Config} {p : Profile} {w h : Nat} {plan : RasterPlan}
    (hp : rasterPlan cfg p w h = .ok plan) : ∃ bpr h1, rasterCounts cfg.headerOverflow bpr h1 = some plan.counts := by
  simp only [rasterPlan] at hp
  split at hp
  · cases hp
  · split at hp
    · cases hp
    · split at hp
      · cases hp
      next counts hc => cases hp; exact ⟨_, _, hc⟩

/-! ### Text lines -/

/-- The lines hold no break (R120). -/
theorem notMem_breaks_of_mem_textLines {breaks t : List Nat} :
    ∀ l ∈ textLines breaks t, ∀ c ∈ l, c ∉ breaks := by
  induction t with
  | nil => simp [textLines_nil]
  | cons c cs ih =>
    by_cases hc : c ∈ breaks
    · rw [textLines_break hc]
      simpa using ih
    · obtain ⟨l, ls, hcs, hccs⟩ := textLines_char hc cs
      rw [hcs, List.forall_mem_cons] at ih
      rw [hccs, List.forall_mem_cons, List.forall_mem_cons]
      exact ⟨⟨hc, ih.1⟩, ih.2⟩

/-- Only U+000A, or a placeholder that is it, is encoded as 0A (R121). -/
theorem encodeChar_ne_lineFeed {p : Byte} (hp : p ≠ 0x0A) {c : Nat} (hc : c ≠ 0x0A) : encodeChar p c ≠ 0x0A := by
  unfold encodeChar
  split
  · intro h
    have value : c % 2 ^ 8 = 0x0A := congrArg BitVec.toNat h
    omega
  · exact hp

/-- Where U+000A is a break and the placeholder is another byte, no encoded line holds a 0A (R92). -/
theorem lineFeed_notMem_encodedLine {breaks t l : List Nat} {p : Byte} (hb : 0x0A ∈ breaks) (hp : p ≠ 0x0A)
    (hl : l ∈ textLines breaks t) : ∀ b ∈ l.map (encodeChar p), b ≠ 0x0A := by
  intro b hbl
  obtain ⟨c, hc, rfl⟩ := List.mem_map.mp hbl
  exact encodeChar_ne_lineFeed hp fun h => notMem_breaks_of_mem_textLines l hl c hc (h ▸ hb)

/-- A text frame is one text line per line. -/
theorem textFrame_eq_flatMap_encodeFrame (breaks : List Nat) (p : Byte) (t : List Nat) :
    textFrame breaks p t =
      ((textLines breaks t).map fun l => WireFrame.textLine (l.map (encodeChar p))).flatMap encodeFrame := by
  rw [List.flatMap_map]
  rfl

theorem countP_lineFeed_encodeLine {p : Byte} {l : List Nat} (h : ∀ b ∈ l.map (encodeChar p), b ≠ 0x0A) :
    (encodeLine p l).countP (fun b => decide (b = 0x0A)) = 1 := by
  have line : (l.map (encodeChar p)).countP (fun b => decide (b = 0x0A)) = 0 := by simpa using h
  rw [encodeLine, List.countP_append, line]
  rfl

/-- Settles O29: each line brings the one 0A that ends it. -/
theorem lineFeedsOnlyEndLines : Obligations.LineFeedsOnlyEndLines := by
  intro t p hp
  have clean : ∀ l ∈ textLines [0x0A] t, ∀ b ∈ l.map (encodeChar p), b ≠ 0x0A := fun l hl =>
    lineFeed_notMem_encodedLine (List.mem_singleton_self _) hp hl
  refine ⟨?_, clean⟩
  have one : ∀ l ∈ textLines [0x0A] t, ((List.countP fun b => decide (b = 0x0A)) ∘ encodeLine p) l = 1 := fun l hl =>
    countP_lineFeed_encodeLine (clean l hl)
  rw [textFrame, List.countP_flatMap, List.map_congr_left one]
  simp

/-! ### The commands of an accepted request -/

/-- The frame of a framer request is the sequence of the map's commands for it. -/
theorem mapCommands_framerFrame {cfg : Config} {i : Instr} {bytes : List Byte} (h : framerFrame cfg i = some bytes)
    (p : Profile) : ∃ fs, MapCommands cfg p i fs ∧ bytes = fs.flatMap encodeFrame := by
  cases i with
  | text t =>
    cases h
    refine ⟨_, ⟨rfl, fun hb hp bytes hmem hin => ?_⟩, textFrame_eq_flatMap_encodeFrame _ _ t⟩
    obtain ⟨l, hl, hline⟩ := List.mem_map.mp hmem
    cases hline
    exact lineFeed_notMem_encodedLine hb hp hl _ hin rfl
  | feed n =>
    cases h
    exact ⟨_, rfl, by simp [List.flatMap_replicate, encodeFrame]⟩
  | raster img => cases h
  | _ => cases h; exact ⟨_, rfl, rfl⟩

/-- The frame of a RASTER whose checks pass is the one raster command of the map (R86, R91). -/
theorem mapCommands_planFrame {cfg : Config} {p : Profile} {img : Image} {plan : RasterPlan}
    (hp : rasterPlan cfg p img.width img.height = .ok plan) (px : Nat → Nat → Pixel) :
    ∃ fs, MapCommands cfg p (.raster img) fs ∧ planFrame px plan = fs.flatMap encodeFrame := by
  obtain ⟨bpr, h1, hcounts⟩ := rasterPlan_counts hp
  obtain ⟨hbytes, hrows, bounded⟩ := rasterCounts_header hcounts
  refine ⟨_, ⟨plan, _, hp, rfl, rasterPayload_length px plan.targetWidth _ _, fun fits => ?_⟩, ?_⟩
  · obtain ⟨fitsBytes, fitsRows⟩ := fits.elim bounded id
    rw [rasterPayload_length, hbytes, hrows, toNat_ofNat_of_le_65535 fitsBytes, toNat_ofNat_of_le_65535 fitsRows]
  · rw [planFrame_eq_encodeFrame, List.flatMap_singleton]

theorem mapCommands_of_frameOf {cfg : Config} {p : Profile} {i : Instr} {bytes : List Byte}
    (h : FrameOf cfg p i (.ok bytes)) : ∃ fs, MapCommands cfg p i fs ∧ bytes = fs.flatMap encodeFrame := by
  obtain ⟨img, rfl⟩ | ⟨-, bytes', hb⟩ := raster_or_framerFrame cfg i
  · cases hp : rasterPlan cfg p img.width img.height with
    | error e => cases (frameOf_raster_error hp _).mp h
    | ok plan =>
      obtain ⟨resized, hf⟩ := (frameOf_raster_ok hp _).mp h
      cases hf
      exact mapCommands_planFrame hp _
  · cases (frameOf_framer hb p _).mp h
    exact mapCommands_framerFrame hb p

/-- Settles O8: what an acceptance begins to emit is a frame of the request, and that is the map's commands for it. -/
theorem emittedFrameIsOfTheMap : Obligations.EmittedFrameIsOfTheMap := by
  intro i s t b rest idle he busy
  obtain ⟨f, taken, rfl, -, hf⟩ := exec_idle_frameOf idle he
  obtain ⟨e, rfl, h⟩ | ⟨rfl, h⟩ | ⟨b', rest', rfl, h⟩ := State.accept_cases i f taken
  · simp [h] at busy
  · simp [h] at busy
  · rw [h, State.beginEmission_phase] at busy
    cases busy
    exact mapCommands_of_frameOf hf

/-- Settles O9: the text's frame is its one line, and that begins with the bytes of ESC @. -/
theorem textCanSpellACommand : Obligations.TextCanSpellACommand := by
  intro s idle breaks
  have frame : framerFrame s.config (.text [0x1B, 0x40]) = some [0x1B, 0x40, 0x0D, 0x0A] := by
    rw [framerFrame, breaks]
    rfl
  exact ⟨exec_framer_idle _ s _ frame idle, rfl⟩

end Sys2Proof.Machine
end

