-- ==== Sys2Proof/Proofs/RequestRecords.lean ====
section
/-! SUPPORT. Request records (R81 to R83): records and requests correspond one to one, every select code is taken (R82), and the
port refuses by name what is no request of R83's types within its bounds (R6). -/

namespace Sys2Proof.Machine

/-! ### Records and requests -/

/-- Settles O2: a byte or a count is read back from its number, and every other argument stands in the record as it is. -/
theorem encodedRequestDecodes : Obligations.EncodedRequestDecodes :=
  decode_encode

/-- Settles O3, row by row of R81's table: the select code and the argument fields of the row are those of the request. -/
theorem decodedRecordIsTheEncoding : Obligations.DecodedRecordIsTheEncoding := by
  rintro ⟨op, args⟩ i h
  suffices fields : selectCode i = op ∧ requestArgs i = args by simpa [encode] using fields
  have code : ∀ n : Nat, op.toNat = n → BitVec.ofNat 3 n = op := by
    rintro n rfl
    exact (BitVec.ofNat_toNat 3 op).trans (BitVec.setWidth_eq op)
  simp only [decode] at h
  split at h
  next hop => cases h; exact ⟨code 0 hop, rfl⟩
  next hop =>
    obtain ⟨m, hm, rfl⟩ := except_map_ok h
    exact ⟨code 1 hop, by simp [requestArgs, decodeByte_ok hm]⟩
  next hop =>
    obtain ⟨n, hn, rfl⟩ := except_map_ok h
    exact ⟨code 2 hop, by simp [requestArgs, decodeByte_ok hn]⟩
  next hop => cases h; exact ⟨code 3 hop, rfl⟩
  next hop => cases h; exact ⟨code 4 hop, rfl⟩
  next hop =>
    obtain ⟨n, hn, rfl⟩ := except_map_ok h
    exact ⟨code 5 hop, by simp [requestArgs, decodeCount_ok hn]⟩
  next hop => cases h; exact ⟨code 6 hop, rfl⟩
  next hop => cases h; exact ⟨code 7 hop, rfl⟩
  next => cases h

/-- The select codes of the eight requests are all of the 3-bit codes (R82). -/
theorem exists_selectCode_eq (op : BitVec 3) : ∃ i, selectCode i = op := by
  have codes : ∀ op : BitVec 3, op ∈ [Instr.reset, .mode 0, .spacing 0, .size 0 0, .text [], .feed 0, .cut,
      .raster ⟨0, 0, .uniform .white⟩].map selectCode := by decide
  obtain ⟨i, -, hi⟩ := List.mem_map.mp (codes op)
  exact ⟨i, hi⟩

/-- Settles O4: the record of a request with that code is one. -/
theorem everySelectCodeSelectsARequest : Obligations.EverySelectCodeSelectsARequest := by
  intro op
  obtain ⟨i, rfl⟩ := exists_selectCode_eq op
  exact ⟨requestArgs i, i, decode_encode i, rfl⟩

/-- Settles O1 by running both decoders on the written words. -/
theorem sampleWordsDecode : Obligations.SampleWordsDecode := by
  unfold Obligations.SampleWordsDecode
  decide

/-! ### No request stops the block -/

/-- Settles O21: the request is accepted, or it waits on the port. -/
theorem everyRequestAnswersANextState : Obligations.EveryRequestAnswersANextState :=
  exec_next

/-! ### What the port refuses -/

theorem decodeByte_outOfRange {v : Int} (h : v < 0 ∨ 255 < v) : decodeByte v = .error .byteOutOfRange :=
  if_neg (by omega)

theorem decodeCount_negative {v : Int} (h : v < 0) : decodeCount v = .error .negativeCount :=
  if_neg (by omega)

theorem admitRequest_of_decode_error {r : Request} {e : DecodeError} (h : decode r = .error e) (cfg : Config) :
    admitRequest cfg r = .error (.notPresentable e) := by
  simp [admitRequest, h]

theorem admitRequest_encode_illFormed {i : Instr} (h : wellFormed i = false) (cfg : Config) :
    admitRequest cfg (encode i) = .error .illFormed := by
  simp [admitRequest, decode_encode, h]

theorem admitRequest_encode_refused {cfg : Config} {i : Instr} {e : Refusal} (formed : wellFormed i = true)
    (refused : portRefusal cfg i = some e) : admitRequest cfg (encode i) = .error e := by
  simp [admitRequest, decode_encode, formed, refused]

/-- An Idle block refuses, at its step, a record that is not admitted. -/
theorem step_of_not_admitted {s : State} {r : Request} {rs : List Request} {e : Refusal}
    (legal : profileLegal s.profile = true) (noReset : s.resetInput = []) (idle : s.phase = .idle)
    (offered : s.offers = r :: rs) (h : admitRequest s.config r = .error e) : step s = .refused e := by
  rw [step_no_reset s legal noReset]
  simp [runStep, idle, idleStep, offered, h]

theorem wellFormed_text_iff (t : List Nat) : wellFormed (.text t) = true ↔ ∀ c ∈ t, c ≤ 0x10FFFF := by
  simp [wellFormed, textWellFormed]

theorem wellFormed_rows_iff (w h : Nat) (rows : List (List Pixel)) :
    wellFormed (.raster ⟨w, h, .rows rows⟩) = true ↔ rows.length = h ∧ ∀ row ∈ rows, row.length = w := by
  simp [wellFormed, Image.wellFormed]

theorem portRefusal_text {cfg : Config} {k : Nat} (bound : cfg.textMaxLen = some k) (t : List Nat) :
    portRefusal cfg (.text t) = if t.length ≤ k then none else some .textTooLong := by
  simp [portRefusal, fitsLength, bound]

theorem portRefusal_raster {cfg : Config} {k : Nat} (bound : cfg.imageDimBits = some k) (img : Image) :
    portRefusal cfg (.raster img) =
      if img.width < 2 ^ k ∧ img.height < 2 ^ k then none else some .imageTooLarge := by
  simp [portRefusal, fitsBits, bound]

/-- Settles O5: the port's check decides, and the step of an Idle block refuses a record that is not admitted. -/
theorem outOfRangeArgumentRefused : Obligations.OutOfRangeArgumentRefused := by
  refine ⟨fun v hv => ?_, fun v hv => ?_, ?_⟩
  · have byte := decodeByte_outOfRange hv
    exact ⟨congrArg (Except.map Instr.mode) byte, congrArg (Except.map Instr.spacing) byte⟩
  · exact congrArg (Except.map Instr.feed) (decodeCount_negative hv)
  intro s r rs legal noReset idle offered
  have refused : ∀ {e}, admitRequest s.config r = .error e → step s = .refused e :=
    step_of_not_admitted legal noReset idle offered
  have runs : ∀ i, r = encode i → wellFormed i = true → portRefusal s.config i = none →
      step s = exec i { s with offers := rs } := by
    rintro i rfl formed fits
    exact (stepRunsTheOfferedRequest s _ rs i legal idle offered (decode_encode i) formed fits).1 noReset
  refine ⟨?_, ?_, ?_, ?_, ?_⟩
  · intro noRequest
    cases hd : decode r with
    | ok i => exact absurd (decodedRecordIsTheEncoding r i hd) (noRequest i)
    | error e => exact ⟨e, rfl, refused (admitRequest_of_decode_error hd _)⟩
  · rintro t rfl ⟨c, hc, big⟩
    refine refused (admitRequest_encode_illFormed (Bool.eq_false_iff.mpr fun formed => ?_) _)
    exact absurd ((wellFormed_text_iff t).mp formed c hc) (by omega)
  · rintro w h rows rfl unfilled
    refine refused (admitRequest_encode_illFormed (Bool.eq_false_iff.mpr fun formed => ?_) _)
    obtain ⟨rowCount, rowLength⟩ := (wellFormed_rows_iff w h rows).mp formed
    obtain count | ⟨row, hrow, length⟩ := unfilled
    · exact count rowCount
    · exact length (rowLength row hrow)
  · rintro t k rfl codePoints bound
    have formed := (wellFormed_text_iff t).mpr codePoints
    have port := portRefusal_text bound t
    exact ⟨fun long => refused (admitRequest_encode_refused formed (port.trans (if_neg (by omega)))),
      fun fits => runs _ rfl formed (port.trans (if_pos fits))⟩
  · rintro img k rfl formed bound
    have port := portRefusal_raster bound img
    exact ⟨fun large => refused (admitRequest_encode_refused formed (port.trans (if_neg (by omega)))),
      fun width height => runs _ rfl formed (port.trans (if_pos ⟨width, height⟩))⟩

end Sys2Proof.Machine
end

