-- ==== Sys2Proof/Proofs/Assembly.lean ====
section
/-! SUPPORT. The written form of requests and images (R95): every request line adds one request of R83's types, and every declared
image is filled by its rows, so an assembled program holds well-formed requests only. -/

namespace Sys2Proof.Machine

/-! ### Strings -/

theorem char_toNat_le (c : Char) : c.toNat ≤ 0x10FFFF := by
  have valid : c.toNat < 0xD800 ∨ 0xDFFF < c.toNat ∧ c.toNat < 0x110000 := c.valid
  omega

/-- Every number read so far is a code point; a character is one, and an escape is checked to be one. -/
theorem parseStringBody_codePoints {m : StringMode} {acc t : List Nat} {cs r : List Char}
    (h : parseStringBody m acc cs = .ok (t, r)) (read : ∀ c ∈ acc, c ≤ 0x10FFFF) : ∀ c ∈ t, c ≤ 0x10FFFF := by
  have push : ∀ {v : Nat} {acc : List Nat}, v ≤ 0x10FFFF → (∀ c ∈ acc, c ≤ 0x10FFFF) → ∀ c ∈ v :: acc, c ≤ 0x10FFFF :=
    fun hv hacc => List.forall_mem_cons.mpr ⟨hv, hacc⟩
  induction cs generalizing m acc with
  | nil => cases h
  | cons c rest ih =>
    cases m with
    | plain =>
      simp only [parseStringBody] at h
      split at h
      · cases h; simpa using read
      split at h
      · exact ih h read
      · exact ih h (push (char_toNat_le c) read)
    | escape =>
      simp only [parseStringBody] at h
      split at h
      · exact ih h (push (by decide) read)
      split at h
      · exact ih h (push (by decide) read)
      split at h
      · exact ih h (push (by decide) read)
      split at h
      · exact ih h (push (by decide) read)
      split at h
      · exact ih h read
      · cases h
    | braceOpen =>
      simp only [parseStringBody] at h
      split at h
      · exact ih h read
      · cases h
    | hexDigits seen v =>
      simp only [parseStringBody] at h
      split at h
      · split at h
        next hv => exact ih h (push hv read)
        next => cases h
      · split at h
        · exact ih h read
        · cases h

theorem parseString_wellFormed {cs r : List Char} {t : List Nat} (h : parseString cs = .ok (t, r)) :
    wellFormed (.text t) = true := by
  unfold parseString at h
  split at h
  · exact (wellFormed_text_iff t).mpr (parseStringBody_codePoints h (by simp))
  · cases h

/-! ### Request lines -/

/-- What every line keeps: the declared images are filled, and the requests are records of well-formed requests. -/
structure AsmState.WellFormed (st : AsmState) : Prop where
  images : ∀ entry ∈ st.images, entry.2.wellFormed = true
  requests : ∀ r ∈ st.requests, ∃ i, decode r = .ok i ∧ wellFormed i = true

theorem AsmState.wellFormed_empty : AsmState.WellFormed ⟨[], []⟩ :=
  ⟨by simp, by simp⟩

theorem AsmState.WellFormed.declare {st : AsmState} (hst : st.WellFormed) (name : List Char) {img : Image}
    (formed : img.wellFormed = true) : AsmState.WellFormed { st with images := (name, img) :: st.images } :=
  ⟨List.forall_mem_cons.mpr ⟨formed, hst.images⟩, hst.requests⟩

theorem addRequest_wellFormed {i : Instr} {rest : List Char} {st st' : AsmState} (h : addRequest i rest st = .ok st')
    (hst : st.WellFormed) (formed : wellFormed i = true) : st'.WellFormed := by
  unfold addRequest at h
  split at h
  · cases h
    exact ⟨hst.images, List.forall_mem_cons.mpr ⟨⟨i, decode_encode i, formed⟩, hst.requests⟩⟩
  · cases h

theorem byteLine_wellFormed {k : Byte → Instr} {rest : List Char} {st st' : AsmState} (h : byteLine k rest st = .ok st')
    (hst : st.WellFormed) (formed : ∀ b, wellFormed (k b) = true) : st'.WellFormed := by
  unfold byteLine at h
  split at h
  · cases h
  · split at h
    · exact addRequest_wellFormed h hst (formed _)
    · cases h

theorem sizeLine_wellFormed {rest : List Char} {st st' : AsmState} (h : sizeLine rest st = .ok st')
    (hst : st.WellFormed) : st'.WellFormed := by
  unfold sizeLine at h
  split at h
  · cases h
  · split at h
    · split at h
      · cases h
      · exact addRequest_wellFormed h hst rfl
    · cases h

theorem textLine_wellFormed {rest : List Char} {st st' : AsmState} (h : textLine rest st = .ok st')
    (hst : st.WellFormed) : st'.WellFormed := by
  unfold textLine at h
  split at h
  next => cases h
  next t r ht => exact addRequest_wellFormed h hst (parseString_wellFormed ht)

theorem feedLine_wellFormed {rest : List Char} {st st' : AsmState} (h : feedLine rest st = .ok st')
    (hst : st.WellFormed) : st'.WellFormed := by
  unfold feedLine at h
  split at h
  · cases h
  · exact addRequest_wellFormed h hst rfl

theorem rasterLine_wellFormed {rest : List Char} {st st' : AsmState} (h : rasterLine rest st = .ok st')
    (hst : st.WellFormed) : st'.WellFormed := by
  simp only [rasterLine] at h
  split at h
  next => cases h
  next entry found => exact addRequest_wellFormed h hst (hst.images entry (List.mem_of_find?_eq_some found))

theorem requestLine_wellFormed {word rest : List Char} {st st' : AsmState} (h : requestLine word rest st = .ok st')
    (hst : st.WellFormed) : st'.WellFormed := by
  simp only [requestLine] at h
  split at h
  · exact addRequest_wellFormed h hst rfl
  split at h
  · exact byteLine_wellFormed h hst fun _ => rfl
  split at h
  · exact byteLine_wellFormed h hst fun _ => rfl
  split at h
  · exact sizeLine_wellFormed h hst
  split at h
  · exact textLine_wellFormed h hst
  split at h
  · exact feedLine_wellFormed h hst
  split at h
  · exact addRequest_wellFormed h hst rfl
  split at h
  · exact rasterLine_wellFormed h hst
  · cases h

/-! ### Images -/

theorem imageLine_filled_wellFormed {rest name : List Char} {img : Image} (h : imageLine rest = .ok (.filled name img)) :
    img.wellFormed = true := by
  simp only [imageLine] at h
  split at h
  · cases h
  split at h
  · cases h
  split at h
  · cases h
  split at h
  · cases h
  split at h
  · cases h
  split at h
  · cases h; rfl
  split at h
  · cases h; rfl
  · cases h

theorem parseRow_length {w : Nat} {line : List Char} {row : List Pixel} (h : parseRow w line = .ok row) :
    row.length = w := by
  simp only [parseRow] at h
  split at h
  next hrow => cases h; exact hrow.2.1
  next => cases h

/-- The rows read and the rows missing make up the height, and each row read has the width. -/
structure OpenImage.Fitting (o : OpenImage) : Prop where
  rowCount : o.rows.length + o.missing = o.height
  rowLength : ∀ row ∈ o.rows, row.length = o.width

theorem OpenImage.Fitting.addRow {o : OpenImage} (ho : o.Fitting) (unfinished : o.missing ≠ 0) {row : List Pixel}
    (length : row.length = o.width) :
    OpenImage.Fitting { o with missing := o.missing - 1, rows := row :: o.rows } where
  rowCount := by
    have count := ho.rowCount
    simp only [List.length_cons]
    omega
  rowLength := List.forall_mem_cons.mpr ⟨length, ho.rowLength⟩

/-- An image that no row is missing of is filled. -/
theorem closeImage_wellFormed {o : OpenImage} {st : AsmState} (ho : o.Fitting) (complete : o.missing = 0)
    (hst : st.WellFormed) : (closeImage o st).WellFormed := by
  refine hst.declare o.name ((wellFormed_rows_iff o.width o.height o.rows.reverse).mpr ⟨?_, ?_⟩)
  · rw [List.length_reverse, ← ho.rowCount, complete, Nat.add_zero]
  · simpa using ho.rowLength

/-! ### The program -/

/-- Line by line: an image row brings an open image nearer to its height, and every other line keeps the assembled state well-formed. -/
theorem assembleLines_wellFormed {pending : Option OpenImage} {st st' : AsmState} {lines : List (List Char)}
    (h : assembleLines pending st lines = .ok st') (hst : st.WellFormed)
    (hpending : ∀ o ∈ pending, o.Fitting ∧ o.missing ≠ 0) : st'.WellFormed := by
  induction lines generalizing pending st with
  | nil =>
    cases pending with
    | none => cases h; exact hst
    | some o => cases h
  | cons line rest ih =>
    cases pending with
    | some o =>
      obtain ⟨fitting, unfinished⟩ := hpending o rfl
      simp only [assembleLines] at h
      split at h
      next => cases h
      next row hrow =>
        have fitting' := fitting.addRow unfinished (parseRow_length hrow)
        split at h
        next complete => exact ih h (closeImage_wellFormed fitting' complete hst) (by simp)
        next incomplete => exact ih h hst (by simpa using ⟨fitting', incomplete⟩)
    | none =>
      simp only [assembleLines] at h
      split at h
      · exact ih h hst (by simp)
      split at h
      · split at h
        next => cases h
        next name img himg => exact ih h (hst.declare name (imageLine_filled_wellFormed himg)) (by simp)
        next name w height himg =>
          have fitting : OpenImage.Fitting ⟨name, w, height, height, []⟩ := ⟨Nat.zero_add height, by simp⟩
          split at h
          next hz =>
            subst hz
            exact ih h (closeImage_wellFormed fitting rfl hst) (by simp)
          next hz => exact ih h hst (by simpa using ⟨fitting, hz⟩)
      · split at h
        next => cases h
        next st₁ hline => exact ih h (requestLine_wellFormed hline hst) (by simp)

/-- Settles O10: the assembled requests are those of the state after the last line. -/
theorem assembledRequestsAreWellFormed : Obligations.AssembledRequestsAreWellFormed := by
  intro source rs h r hr
  obtain ⟨st, hst, rfl⟩ := except_map_ok h
  exact (assembleLines_wellFormed hst AsmState.wellFormed_empty (by simp)).requests r (List.mem_reverse.mp hr)

end Sys2Proof.Machine
end

