-- ==== Sys2Proof/Proofs/TextFrames.lean ====
section
/-! SUPPORT. What TEXT computes: the lines are the library's split at the breaks (R120), and the frame has one byte per code point
that is no break, and two per line (R121 to R123). -/

namespace Sys2Proof.Machine

/-! ### Lines -/

/-- `Lines(t)` is the list library's split at the elements that are breaks (R120). -/
theorem textLines_eq_splitOnP (breaks t : List Nat) :
    textLines breaks t = t.splitOnP (fun c => decide (c ∈ breaks)) := by
  induction t with
  | nil => rfl
  | cons c cs ih =>
    rw [List.splitOnP_cons_eq_if_modifyHead, ← ih]
    by_cases hc : c ∈ breaks
    · simp [textLines_break hc, hc]
    · obtain ⟨l, ls, hcs, hccs⟩ := textLines_char hc cs
      simp [hcs, hccs, hc]

theorem textLines_length (breaks t : List Nat) :
    (textLines breaks t).length = t.countP (fun c => decide (c ∈ breaks)) + 1 := by
  induction t with
  | nil => rfl
  | cons c cs ih =>
    by_cases hc : c ∈ breaks
    · simp [textLines_break hc, hc, ih]
    · obtain ⟨l, ls, hcs, hccs⟩ := textLines_char hc cs
      simpa [hcs, hccs, hc] using ih

/-- Settles O25: the first two clauses are the library's about its split. -/
theorem textLinesCutAtBreaks : Obligations.TextLinesCutAtBreaks := by
  refine ⟨fun breaks l clean => ?_, fun breaks t => ⟨textLines_length breaks t, notMem_breaks_of_mem_textLines⟩,
    rfl, rfl, rfl, rfl⟩
  have noBreak : ∀ c ∈ l, decide (c ∈ breaks) = false := fun c hc => decide_eq_false (clean c hc)
  simp only [textLines_eq_splitOnP]
  exact ⟨List.splitOnP_eq_singleton noBreak, fun b t hb =>
    List.splitOnP_append_cons_of_forall_mem noBreak b (decide_eq_true hb) t⟩

theorem textLines_singleton_eq_splitOn (b : Nat) (t : List Nat) : textLines [b] t = t.splitOn b := by
  have pred : (fun c => decide (c ∈ [b])) = (· == b) := by
    funext c
    simp [Bool.beq_eq_decide_eq]
  rw [textLines_eq_splitOnP, pred, List.splitOn_eq_splitOnP]

/-- Settles O26: with one break, the lines are a split that the library's `intercalate` undoes. -/
theorem textLinesRejoin : Obligations.TextLinesRejoin := by
  intro b t
  rw [textLines_singleton_eq_splitOn, List.intercalate_splitOn]

/-! ### Bytes -/

/-- Settles O27: a code point up to 0x7F is below 2^8, so its byte has its value. -/
theorem characterEncoding : Obligations.CharacterEncoding := by
  refine ⟨fun p c => ⟨fun low => ?_, fun high => if_neg (by omega)⟩, rfl⟩
  rw [encodeChar, if_pos low, BitVec.toNat_ofNat]
  omega

theorem textFrame_nil (breaks : List Nat) (p : Byte) : textFrame breaks p [] = [0x0D, 0x0A] := rfl

/-- A break ends the line begun so far (R123). -/
theorem textFrame_break {breaks : List Nat} {c : Nat} (h : c ∈ breaks) (p : Byte) (cs : List Nat) :
    textFrame breaks p (c :: cs) = 0x0D :: 0x0A :: textFrame breaks p cs := by
  rw [textFrame, textLines_break h]
  rfl

/-- Any other code point is one byte before the rest of its line (R123). -/
theorem textFrame_char {breaks : List Nat} {c : Nat} (h : c ∉ breaks) (p : Byte) (cs : List Nat) :
    textFrame breaks p (c :: cs) = encodeChar p c :: textFrame breaks p cs := by
  obtain ⟨l, ls, hcs, hccs⟩ := textLines_char h cs
  rw [textFrame, textFrame, hcs, hccs]
  rfl

theorem textFrame_ne_nil (breaks : List Nat) (p : Byte) (t : List Nat) : textFrame breaks p t ≠ [] := by
  cases t with
  | nil => simp [textFrame_nil]
  | cons c cs =>
    by_cases hc : c ∈ breaks
    · simp [textFrame_break hc]
    · simp [textFrame_char hc]

/-- Settles O28, by induction on the text: a break brings two bytes, any other code point one, and the last line's end two. -/
theorem textFrameLength : Obligations.TextFrameLength := by
  intro breaks t p
  dsimp only
  induction t with
  | nil => rfl
  | cons c cs ih =>
    by_cases hc : c ∈ breaks
    · rw [textFrame_break hc, List.countP_cons_of_pos (by simpa using hc)]
      simp only [List.length_cons]
      omega
    · rw [textFrame_char hc, List.countP_cons_of_neg (by simpa using hc)]
      simp only [List.length_cons]
      omega

end Sys2Proof.Machine
end

