-- ==== Sys2Proof/Proofs/FramerRequests.lean ====
section
/-! SUPPORT. The framer's requests at an Idle block (R110 to R128): the size byte, the state each acceptance leads to and what it leaves
unchanged, and the FEED counts that the port admits (R127). -/

namespace Sys2Proof.Machine

/-! ### The size byte -/

/-- The low four bits of an integer are its value mod 16 (R8). -/
theorem ofInt_and_nibble_toNat (x : Int) : ((BitVec.ofInt 8 x &&& 0x0F).toNat : Int) = x % 16 := by
  have mask : (BitVec.ofInt 8 x).toNat &&& 15 = (BitVec.ofInt 8 x).toNat % 16 := Nat.and_two_pow_sub_one_eq_mod _ 4
  have value : (BitVec.ofInt 8 x &&& 0x0F).toNat = (BitVec.ofInt 8 x).toNat % 16 := by simpa using mask
  rw [value, BitVec.toNat_ofInt]
  omega

theorem ofInt_and_nibble_of_le {x : Int} (low : 0 ≤ x) (high : x ≤ 15) :
    BitVec.ofInt 8 x &&& 0x0F = BitVec.ofInt 8 x := by
  have nibble := ofInt_and_nibble_toNat x
  apply BitVec.eq_of_toNat_eq
  rw [BitVec.toNat_ofInt]
  omega

/-- Two nibbles side by side. -/
theorem toNat_shiftLeft_four_or {a b : Byte} (ha : a.toNat < 16) (hb : b.toNat < 16) :
    (a <<< 4 ||| b).toNat = 16 * a.toNat + b.toNat := by
  have shifted : (a <<< 4).toNat = a.toNat <<< 4 := by
    rw [BitVec.toNat_shiftLeft, Nat.shiftLeft_eq]
    omega
  rw [BitVec.toNat_or, shifted, ← Nat.shiftLeft_add_eq_or_of_lt (i := 4) hb, Nat.shiftLeft_eq]
  omega

theorem sizeByte_perNibble_toNat (w h : Int) :
    ((sizeByte .perNibble w h).toNat : Int) = 16 * (w % 16) + h % 16 := by
  have hw := ofInt_and_nibble_toNat w
  have hh := ofInt_and_nibble_toNat h
  have sum := toNat_shiftLeft_four_or (a := BitVec.ofInt 8 w &&& 0x0F) (b := BitVec.ofInt 8 h &&& 0x0F)
    (by omega) (by omega)
  rw [sizeByte, sum]
  omega

theorem sizeByte_combinedByte (w h : Int) :
    sizeByte .combinedByte w h = BitVec.ofInt 8 (Int.lor (w * 16) h) := by
  apply BitVec.eq_of_getLsbD_eq
  intro k hk
  rw [sizeByte, ofInt_shiftLeft_four, BitVec.getLsbD_or, ofInt_getLsbD _ hk, ofInt_getLsbD _ hk, ofInt_getLsbD _ hk,
    Int.testBit_lor]

/-- In range the masks of PerNibble drop nothing, so the two policies give one byte (R117). -/
theorem sizeByte_combinedByte_eq_perNibble {w h : Int} (hw0 : 0 ≤ w) (hw : w ≤ 15) (hh0 : 0 ≤ h) (hh : h ≤ 15) :
    sizeByte .combinedByte w h = sizeByte .perNibble w h := by
  rw [sizeByte, sizeByte, ofInt_and_nibble_of_le hw0 hw, ofInt_and_nibble_of_le hh0 hh]

/-- Settles O24: PerNibble puts two nibbles side by side, CombinedByte takes low bits, and in range the two are one. -/
theorem sizeByteByPolicy : Obligations.SizeByteByPolicy := by
  refine ⟨fun w h => ⟨sizeByte_perNibble_toNat w h, sizeByte_combinedByte w h, fun hw0 hw hh0 hh => ?_⟩,
    by decide, by decide, rfl⟩
  have byte := sizeByte_perNibble_toNat w h
  rw [sizeByte_combinedByte_eq_perNibble hw0 hw hh0 hh]
  omega

/-! ### The state after an acceptance -/

/-- An Idle block that accepts a framer request with bytes to emit begins to emit them (R30). -/
theorem exec_framer_cons {i : Instr} {s : State} {b : Byte} {rest : List Byte}
    (frame : framerFrame s.config i = some (b :: rest)) (idle : s.phase = .idle) :
    exec i s = .next { s with phase := .busy b rest, lat := some i, response := none } := by
  rw [exec_framer_idle i s _ frame idle, State.accept_cons]

/-- Settles O11: RESET's frame is `1B 40`. -/
theorem resetAccepted : Obligations.ResetAccepted := fun _ idle => exec_framer_cons rfl idle

/-- Settles O12: MODE's frame is `1B 21` and the byte. -/
theorem modeAccepted : Obligations.ModeAccepted := fun _ _ idle => exec_framer_cons rfl idle

/-- Settles O13: SPACING's frame is `1B 33` and the byte. -/
theorem spacingAccepted : Obligations.SpacingAccepted := fun _ _ idle => exec_framer_cons rfl idle

/-- Settles O17: CUT's frame is `1B 69`. -/
theorem cutAccepted : Obligations.CutAccepted := fun _ idle => exec_framer_cons rfl idle

/-- Settles O14: SIZE's frame ends in the size byte of the masking policy. -/
theorem sizeAccepted : Obligations.SizeAccepted := by
  intro w h s idle
  refine ⟨sizeByte s.config.textSizeMasking w h, exec_framer_cons rfl idle, fun policy => ?_, fun policy => ?_⟩
  · rw [policy, sizeByte_perNibble_toNat]
  · rw [policy, sizeByte_combinedByte]

/-- Settles O15: TEXT's frame has at least the end of one line, so there is a first byte. -/
theorem textAccepted : Obligations.TextAccepted := by
  intro t s idle
  obtain ⟨b, rest, frame⟩ :=
    List.exists_cons_of_ne_nil (textFrame_ne_nil s.config.lineBreak s.config.placeholderByte t)
  exact ⟨b, rest, frame.symm, exec_framer_cons (congrArg some frame) idle⟩

/-- Settles O16: FEED's frame is empty for no line, and else begins with a line feed. -/
theorem feedAccepted : Obligations.FeedAccepted := by
  intro n s idle
  refine ⟨?_, exec_framer_cons rfl idle⟩
  rw [exec_framer_idle (.feed 0) s [] rfl idle, State.accept_empty, ← idle]

/-! ### What an acceptance leaves unchanged -/

/-- ACCEPT writes the phase, the latch and the responses, and nothing else (R30). -/
theorem State.accept_writes (i : Instr) (f : FrameResult) (s : State) :
    ∃ phase lat response responses, s.accept i f = { s with phase, lat, response, responses } := by
  obtain ⟨e, -, h⟩ | ⟨-, h⟩ | ⟨b, rest, -, h⟩ := s.accept_cases i f <;> exact ⟨_, _, _, _, h⟩

/-- Settles O22: ACCEPT writes no field of the environment, and only RASTER has used an answer of the image source before it. -/
theorem acceptFrame : Obligations.AcceptFrame := by
  intro i s t idle he
  obtain ⟨f, taken, rfl, htaken, framer⟩ := exec_idle_cases idle he
  obtain ⟨phase, lat, response, responses, accepted⟩ := taken.accept_writes i f
  rw [accepted]
  have source : taken = s ∨ (∃ img, i = .raster img) ∧ taken = s.takeResize := by
    obtain raster | ⟨-, bytes, frame⟩ := raster_or_framerFrame s.config i
    · exact htaken.imp_right fun resized => ⟨raster, resized⟩
    · exact .inl (framer bytes frame).2
  obtain rfl | ⟨raster, rfl⟩ := source
  · exact ⟨rfl, rfl, rfl, rfl, rfl, rfl, rfl, .inl ⟨rfl, rfl⟩⟩
  · exact ⟨rfl, rfl, rfl, rfl, rfl, rfl, rfl, .inr ⟨raster, rfl, rfl⟩⟩

/-! ### FEED at the port -/

theorem portRefusal_feed_unbounded {cfg : Config} (bound : cfg.feedCountBits = none) (n : Nat) :
    portRefusal cfg (.feed n) = none := by
  simp [portRefusal, fitsBits, bound]

theorem portRefusal_feed {cfg : Config} {k : Nat} (bound : cfg.feedCountBits = some k) (n : Nat) :
    portRefusal cfg (.feed n) = if n < 2 ^ k then none else some .feedCountTooWide := by
  simp [portRefusal, fitsBits, bound]

/-- Settles O49: every FEED record is well-formed, so the port's width alone decides between refusal and execution. -/
theorem narrowPortRefusesFeedCount : Obligations.NarrowPortRefusesFeedCount := by
  intro s n rs legal noReset idle offered
  have runs : portRefusal s.config (.feed n) = none → step s = exec (.feed n) { s with offers := rs } := fun fits =>
    (stepRunsTheOfferedRequest s _ rs _ legal idle offered (decode_encode _) rfl fits).1 noReset
  refine ⟨fun bound => runs (portRefusal_feed_unbounded bound n), fun k bound => ⟨fun wide => ?_, fun fits => ?_⟩⟩
  · have refused := (portRefusal_feed bound n).trans (if_neg (by omega))
    exact step_of_not_admitted legal noReset idle offered (admitRequest_encode_refused rfl refused)
  · exact runs ((portRefusal_feed bound n).trans (if_pos fits))

end Sys2Proof.Machine
end

