-- ==== Sys2Proof/Proofs/RasterScaling.lean ====
section
/-! SUPPORT. From an image's size to the counts of its frame (R160 to R172): the rounding, the two-stage fit with its aspect, the width
fit and the header overflow, each by its branches. -/

namespace Sys2Proof.Machine

/-! ### RoundQ -/

theorem roundQ_nearestEven (n : Nat) {d : Nat} (hd : 0 < d) : NearestEven ((n : ℚ) / d) (roundQ n d) := by
  obtain ⟨near, tie⟩ := roundQ_near hd (div_mul_cancel₀ (n : ℚ) (by positivity))
  exact nearestEven_of_near near tie

/-- Settles O30: RoundQ is within one half of the quotient, and even at one half. -/
theorem roundQNearestTiesToEven : Obligations.RoundQNearestTiesToEven :=
  ⟨fun n _ hd => roundQ_nearestEven n hd, by decide⟩

/-- Scaling down never enlarges. -/
theorem roundQ_mul_le {a b c : Nat} (h : b < c) : roundQ (a * b) c ≤ a := by
  obtain ⟨upper, -, -⟩ := roundQ_spec (a * b) c (by omega)
  by_contra! larger
  have : (a + 1) * c ≤ roundQ (a * b) c * c := Nat.mul_le_mul_right c larger
  have : a * b ≤ a * c := Nat.mul_le_mul_left a h.le
  linarith [Nat.succ_mul a c]

/-! ### The two-stage fit -/

/-- Width priority: the candidate fits the cap (R162). -/
theorem finalDims_of_le {m c : Nat} (h : c ≤ m) (rounding : Rounding) (d : Nat) : finalDims rounding d m c = (d, c) :=
  if_pos h

/-- The capped branch (R162). -/
theorem finalDims_of_lt {m c : Nat} (h : m < c) (rounding : Rounding) (d : Nat) :
    finalDims rounding d m c = (scaleBy rounding d m c, m) :=
  if_neg (by omega)

theorem finalDims_eq_ite (rounding : Rounding) (d m c : Nat) :
    finalDims rounding d m c = (if c ≤ m then d else scaleBy rounding d m c, if c ≤ m then c else m) := by
  by_cases h : c ≤ m
  · rw [finalDims_of_le h, if_pos h, if_pos h]
  · rw [finalDims_of_lt (not_le.mp h), if_neg h, if_neg h]

/-- Settles O31: the branches of the fit, and the spec of each rounding function. -/
theorem twoStageFit : Obligations.TwoStageFit := by
  refine ⟨fun h d w m _ _ => ⟨rfl, fun fits => finalDims_of_le fits _ d, fun capped => ?_⟩, by decide,
    roundToBinary64_spec, timesBinary64_spec, nearestInteger_spec,
    fun h d w r p _ quotient product => scaleBinary64_of_some quotient product,
    fun d m c _ => ⟨fun fits => finalDims_of_le fits _ d, fun capped r p quotient product => ?_⟩⟩
  · rw [finalDims_of_lt capped]
    exact ⟨rfl, roundQ_mul_le capped⟩
  · rw [finalDims_of_lt capped, scaleBy, scaleBinary64_of_some quotient product]

/-! ### The aspect -/

/-- Exact scaling is within one half of a pixel (R172). -/
theorem scaleBy_exact_near (a b : Nat) {c : Nat} (hc : 0 < c) :
    |(scaleBy .exactHalfEven a b c : ℚ) - a * b / c| ≤ 1 / 2 := by
  rw [abs_sub_comm, scaleBy]
  exact (roundQ_near hc (by push_cast; field_simp)).1

/-- So the ratio of the scaled side to the other side is that of the image, within half a pixel of the latter (R172). -/
theorem scaleBy_exact_ratio_near (a : Nat) {b c : Nat} (hb : 0 < b) (hc : 0 < c) :
    |(scaleBy .exactHalfEven a b c : ℚ) / b - a / c| ≤ 1 / (2 * b) := by
  have hb' : (0 : ℚ) < b := by exact_mod_cast hb
  calc |(scaleBy .exactHalfEven a b c : ℚ) / b - a / c|
      = |((scaleBy .exactHalfEven a b c : ℚ) - a * b / c) / b| := by congr 1; field_simp
    _ = |(scaleBy .exactHalfEven a b c : ℚ) - a * b / c| / b := by rw [abs_div, abs_of_pos hb']
    _ ≤ 1 / 2 / b := by gcongr; exact scaleBy_exact_near a b hc
    _ = 1 / (2 * b) := by rw [div_div]

/-! ### The width fit -/

theorem fitWidth_padUp (w1 : Nat) : fitWidth .padUp w1 = (w1, (w1 + 7) / 8) := rfl

theorem fitWidth_floorResize (w1 : Nat) : fitWidth .floorResize w1 = (8 * (w1 / 8), w1 / 8) := rfl

theorem fitWidth_cropTrailing (w1 : Nat) : fitWidth .cropTrailing w1 = (w1, w1 / 8) := rfl

theorem fitWidth_eq_ite (fit : WidthFit) (w1 : Nat) :
    fitWidth fit w1 =
      (if fit = .floorResize then 8 * (w1 / 8) else w1, if fit = .padUp then (w1 + 7) / 8 else w1 / 8) := by
  cases fit <;> rfl

/-- A whole number of bytes is sent as it is, under every policy (R164). -/
theorem fitWidth_of_dvd {w1 : Nat} (h : w1 % 8 = 0) (fit : WidthFit) : fitWidth fit w1 = (w1, w1 / 8) := by
  have floor : 8 * (w1 / 8) = w1 := by omega
  have ceil : (w1 + 7) / 8 = w1 / 8 := by omega
  rw [fitWidth_eq_ite, floor, ceil, ite_self, ite_self]

/-- Settles O33: each policy's width and bytes, and the remainder of the width by 8. -/
theorem widthFitPolicies : Obligations.WidthFitPolicies := by
  intro w1
  simp only [fitWidth_padUp, fitWidth_floorResize, fitWidth_cropTrailing, true_and]
  exact ⟨by omega, by omega, by omega, fitWidth_of_dvd⟩

/-- Settles O32: the candidate and the capped width are exact scalings; the rest is the width fit. -/
theorem aspectKept : Obligations.AspectKept := by
  intro h d w m hw hm hd c w1
  obtain ⟨⟨-, padded, -⟩, ⟨-, -, floored⟩, -⟩ := widthFitPolicies w1
  refine ⟨scaleBy_exact_near h d hw, scaleBy_exact_ratio_near h hd hw, fun capped => ?_, padded, by omega⟩
  have width : w1 = scaleBy .exactHalfEven d m c := congrArg Prod.fst (finalDims_of_lt capped _ d)
  rw [width]
  exact ⟨scaleBy_exact_near d m (by omega), scaleBy_exact_ratio_near d hm (by omega)⟩

/-! ### The header overflow -/

theorem rasterCounts_preserve (bpr h1 : Nat) : rasterCounts .preserve bpr h1 = some ⟨bpr, h1, bpr, h1⟩ := rfl

theorem rasterCounts_reject (bpr h1 : Nat) :
    rasterCounts .reject bpr h1 = if 65535 < bpr ∨ 65535 < h1 then none else some ⟨bpr, h1, bpr, h1⟩ := rfl

theorem rasterCounts_clamp (bpr h1 : Nat) :
    rasterCounts .clamp bpr h1 = some ⟨min bpr 65535, min h1 65535, min bpr 65535, min h1 65535⟩ := rfl

/-- Settles O35: the counts of each policy. -/
theorem headerOverflowPolicies : Obligations.HeaderOverflowPolicies := by
  intro bpr h1
  rw [rasterCounts_reject]
  refine ⟨rasterCounts_preserve bpr h1, ?_, fun k hk => ?_, _, rasterCounts_clamp bpr h1, rfl, rfl, ?_⟩
  · simp only [ite_eq_left_iff, reduceCtorEq, imp_false, not_not]
  · split at hk
    · cases hk
    · exact (Option.some.inj hk).symm
  · dsimp only
    omega

/-- The three policies in one: Reject alone may have no counts, Clamp alone changes them (R165). -/
theorem rasterCounts_eq_ite (policy : HeaderOverflow) (bpr h1 : Nat) :
    rasterCounts policy bpr h1 =
      if policy = .reject ∧ (65535 < bpr ∨ 65535 < h1) then none
      else
        let pb := if policy = .clamp then min bpr 65535 else bpr
        let pr := if policy = .clamp then min h1 65535 else h1
        some ⟨pb, pr, pb, pr⟩ := by
  cases policy <;> simp [rasterCounts]

end Sys2Proof.Machine
end

