-- ==== Sys2Proof/Proofs/RasterRequests.lean ====
section
/-! SUPPORT. RASTER at an Idle block (R150 to R173): its header and payload byte by byte, its plan by the checks it passes, and the whole
next state for each outcome. -/

namespace Sys2Proof.Machine

/-! ### The header -/

/-- The two bytes of a 16-bit field are its value (R57). -/
theorem lowByte_add_highByte (w : BitVec 16) : (lowByte w).toNat + 256 * (highByte w).toNat = w.toNat := by
  have hw := w.isLt
  simp only [lowByte, highByte, BitVec.toNat_ofNat]
  omega

/-- Settles O34: each count is masked to a 16-bit field, and the field is its two bytes. -/
theorem headerHoldsCountsMod65536 : Obligations.HeaderHoldsCountsMod65536 := fun hb hr =>
  ⟨_, _, _, _, rasterHeader_eq hb hr, lowByte_add_highByte (BitVec.ofNat 16 hb), lowByte_add_highByte (BitVec.ofNat 16 hr)⟩

@[simp] theorem rasterHeader_length (hb hr : Nat) : (rasterHeader hb hr).length = 8 := rfl

/-- Settles O36: header, payload and trailer. -/
theorem rasterFrameLength : Obligations.RasterFrameLength := fun px plan => by
  rw [planFrame, List.length_append, List.length_append, rasterHeader_length, rasterPayload_length]
  rfl

/-! ### The payload -/

/-- The last row stands behind the others (R167). -/
theorem rasterPayload_succ (px : Nat → Nat → Pixel) (wr pb pr : Nat) :
    rasterPayload px wr pb (pr + 1) = rasterPayload px wr pb pr ++ (List.range pb).map fun j => packByte px wr j pr := by
  simp [rasterPayload, List.range_succ]

/-- Byte j of row y (R167). -/
theorem rasterPayload_getElem? (px : Nat → Nat → Pixel) (wr : Nat) {pb pr j y : Nat} (hj : j < pb) (hy : y < pr) :
    (rasterPayload px wr pb pr)[pb * y + j]? = some (packByte px wr j y) := by
  induction pr with
  | zero => omega
  | succ pr ih =>
    rw [rasterPayload_succ]
    obtain hlt | rfl := Nat.lt_succ_iff_lt_or_eq.mp hy
    · have inside : pb * y + j < (rasterPayload px wr pb pr).length := by
        rw [rasterPayload_length]
        calc pb * y + j < pb * (y + 1) := by rw [Nat.mul_succ]; omega
          _ ≤ pb * pr := Nat.mul_le_mul_left pb hlt
      rw [List.getElem?_append_left inside, ih hlt]
    · rw [List.getElem?_append_right (by simp)]
      simp [hj]

/-- A union has a bit that one of its members has. -/
theorem foldl_or_getLsbD {α : Type} (f : α → Byte) (i : Nat) (l : List α) (acc : Byte) :
    (l.foldl (fun b a => b ||| f a) acc).getLsbD i = (acc.getLsbD i || l.any fun a => (f a).getLsbD i) := by
  induction l generalizing acc with
  | nil => simp
  | cons a l ih => simp [ih, Bool.or_assoc]

/-- Bit 7 - k of a packed byte is that of its pixel k, since no other pixel has a bit there (R167). -/
theorem packByte_getLsbD (px : Nat → Nat → Pixel) (wr j y : Nat) {k : Nat} (hk : k < 8) :
    (packByte px wr j y).getLsbD (7 - k) = decide (packedPixel px wr (8 * j + k) y = .black) := by
  have bit : ∀ a, a < 8 → ∀ p, (pixelBit p a).getLsbD (7 - k) = decide (a = k ∧ p = .black) := fun a ha p => by
    simpa using pixelBit_getLsbD p ⟨a, ha⟩ ⟨k, hk⟩
  rw [packByte, foldl_or_getLsbD, Bool.eq_iff_iff, decide_eq_true_iff]
  constructor
  · intro h
    obtain ⟨a, ha, hset⟩ : ∃ a < 8, (pixelBit (packedPixel px wr (8 * j + a) y) a).getLsbD (7 - k) = true := by
      simpa using h
    obtain ⟨rfl, black⟩ : a = k ∧ packedPixel px wr (8 * j + a) y = .black := by simpa [bit a ha] using hset
    exact black
  · intro black
    have : ∃ a < 8, (pixelBit (packedPixel px wr (8 * j + a) y) a).getLsbD (7 - k) = true :=
      ⟨k, hk, by simp [bit k hk, black]⟩
    simpa using this

theorem packedPixel_eq_black_iff (px : Nat → Nat → Pixel) (wr x y : Nat) :
    packedPixel px wr x y = .black ↔ x < wr ∧ px x y = .black := by
  by_cases hx : x < wr
  · simp [packedPixel_inside px wr x y hx, hx]
  · simp [packedPixel_beyond px wr x y hx, hx]

/-- Settles O37: the byte is that of its place, and its bit that of its pixel. -/
theorem pixelsPackMsbFirst : Obligations.PixelsPackMsbFirst := by
  refine fun px wr pb pr => ⟨rasterPayload_length px wr pb pr, fun j k y hj hk hy =>
    ⟨packByte px wr j y, rasterPayload_getElem? px wr hj hy, ?_⟩⟩
  rw [packByte_getLsbD px wr j y hk]
  exact decide_eq_decide.mpr (packedPixel_eq_black_iff px wr _ y)

/-! ### The plan, check by check (R208) -/

theorem rasterPlan_invalidImage {w h : Nat} (empty : w = 0 ∨ h = 0) (cfg : Config) (p : Profile) :
    rasterPlan cfg p w h = .error .invalidImage :=
  if_pos empty

section
variable {cfg : Config} {p : Profile} {w h w1 h1 wr bpr : Nat} (hw : 0 < w) (hh : 0 < h)
  (dims : finalDims cfg.rounding p.dotWidth p.maxHeight (candidateHeight cfg.rounding h p.dotWidth w) = (w1, h1))
  (fit : fitWidth cfg.widthFit w1 = (wr, bpr))
include hw hh dims fit

theorem rasterPlan_underflow (zero : h1 = 0 ∨ wr = 0 ∨ bpr = 0) : rasterPlan cfg p w h = .error .scaleUnderflow := by
  simp [rasterPlan, hw.ne', hh.ne', dims, fit, zero]

theorem rasterPlan_overflow (nonzero : ¬ (h1 = 0 ∨ wr = 0 ∨ bpr = 0))
    (counts : rasterCounts cfg.headerOverflow bpr h1 = none) : rasterPlan cfg p w h = .error .headerOverflow := by
  simp [rasterPlan, hw.ne', hh.ne', dims, fit, nonzero, counts]

theorem rasterPlan_ok (nonzero : ¬ (h1 = 0 ∨ wr = 0 ∨ bpr = 0)) {k : RasterCounts}
    (counts : rasterCounts cfg.headerOverflow bpr h1 = some k) : rasterPlan cfg p w h = .ok ⟨wr, h1, k⟩ := by
  simp [rasterPlan, hw.ne', hh.ne', dims, fit, nonzero, counts]

end

/-! ### The image sent as it is (R157) -/

section
variable {img : Image} {plan : RasterPlan} (own : plan.targetWidth = img.width ∧ plan.targetHeight = img.height)
include own

theorem bypassesResize_of_own_size : bypassesResize img plan = true := decide_eq_true own

theorem chosenPixels_of_own_size (s : State) : chosenPixels s img plan = pixelRead img := by
  funext x y
  exact if_pos (bypassesResize_of_own_size own)

end

/-! ### The next state -/

/-- A RASTER that fails a check uses no answer of the image source and ends with that status (R204). -/
theorem exec_raster_of_error {img : Image} {s : State} {e : Status} (idle : s.phase = .idle)
    (plan : rasterPlan s.config s.profile img.width img.height = .error e) :
    exec (.raster img) s = .next { s with lat := none, response := some e, responses := s.responses ++ [e] } := by
  have frame : rasterFrame img s = .error e := by simp only [rasterFrame, plan]
  have taken : afterResize img s = s := by simp only [afterResize, plan]
  change execRaster img s = _
  rw [execRaster_idle img s idle, frame, taken, State.accept_error, ← idle]

/-- A RASTER that passes its checks begins its frame, with one answer of the image source used up unless the image is sent as it
is (R157, R168). -/
theorem exec_raster_of_ok {img : Image} {s : State} {plan : RasterPlan} (idle : s.phase = .idle)
    (hp : rasterPlan s.config s.profile img.width img.height = .ok plan) :
    exec (.raster img) s = .next { s with
      phase := .busy 0x1D ((rasterHeader plan.counts.headerBytes plan.counts.headerRows).tail ++
        rasterPayload (chosenPixels s img plan) plan.targetWidth plan.counts.payloadBytes plan.counts.payloadRows ++ [0x0A]),
      lat := some (.raster img), response := none,
      resizeScript := if bypassesResize img plan then s.resizeScript else s.resizeScript.tail,
      resizeDraws := if bypassesResize img plan then s.resizeDraws else s.resizeDraws + 1 } := by
  have frame : rasterFrame img s = .ok (planFrame (chosenPixels s img plan) plan) := by simp only [rasterFrame, hp]
  have taken : afterResize img s = if bypassesResize img plan then s else s.takeResize := by simp only [afterResize, hp]
  change execRaster img s = _
  rw [execRaster_idle img s idle, frame, taken, planFrame_eq_cons, State.accept_cons]
  cases bypassesResize img plan <;> rfl

/-- Settles O18: the first check. -/
theorem rasterInvalidImage : Obligations.RasterInvalidImage := fun _ _ idle empty =>
  exec_raster_of_error idle (rasterPlan_invalidImage empty _ _)

/-- Settles O19: the second check, the third, and the frame of the plan that passes both. -/
theorem rasterOutcome : Obligations.RasterOutcome := by
  intro img s idle hw hh c w1 h1 wr bpr pb pr same px
  have dims : finalDims s.config.rounding s.profile.dotWidth s.profile.maxHeight c = (w1, h1) := finalDims_eq_ite _ _ _ _
  have fit : fitWidth s.config.widthFit w1 = (wr, bpr) := fitWidth_eq_ite _ _
  have counts := rasterCounts_eq_ite s.config.headerOverflow bpr h1
  by_cases zero : h1 = 0 ∨ wr = 0 ∨ bpr = 0
  · rw [if_pos zero]
    exact exec_raster_of_error idle (rasterPlan_underflow hw hh dims fit zero)
  rw [if_neg zero]
  by_cases tooLarge : s.config.headerOverflow = .reject ∧ (65535 < bpr ∨ 65535 < h1)
  · rw [if_pos tooLarge] at counts ⊢
    exact exec_raster_of_error idle (rasterPlan_overflow hw hh dims fit zero counts)
  · rw [if_neg tooLarge] at counts ⊢
    exact exec_raster_of_ok idle (rasterPlan_ok hw hh dims fit zero counts)

/-- Settles O40: the candidate is the image's own height, so the target is its own size. -/
theorem dotWidthImageIsNotRescaled : Obligations.DotWidthImageIsNotRescaled := by
  intro img s idle exactRounding preserve legal width hh cap
  obtain ⟨dots, bytes, -⟩ := (profileLegal_iff _).mp legal
  rw [← width] at dots bytes
  have candidate : candidateHeight s.config.rounding img.height s.profile.dotWidth img.width = img.height := by
    rw [exactRounding, ← width]
    exact roundQ_mul img.height img.width dots
  have dims : finalDims s.config.rounding s.profile.dotWidth s.profile.maxHeight
      (candidateHeight s.config.rounding img.height s.profile.dotWidth img.width) = (img.width, img.height) := by
    rw [candidate, finalDims_of_le cap, width]
  have counts : rasterCounts s.config.headerOverflow (img.width / 8) img.height =
      some ⟨img.width / 8, img.height, img.width / 8, img.height⟩ := by rw [preserve, rasterCounts_preserve]
  have plan := rasterPlan_ok dots hh dims (fitWidth_of_dvd bytes _) (by omega) counts
  rw [exec_raster_of_ok idle plan, chosenPixels_of_own_size ⟨rfl, rfl⟩, bypassesResize_of_own_size ⟨rfl, rfl⟩]
  rfl

end Sys2Proof.Machine
end

