-- ==== Sys2Proof/Proofs/FailuresAndWaits.lean ====
section
/-! SUPPORT. How a request ends when the sink fails a byte of its frame (R202, R207), with which status code (R200), and what the block
does while nothing happens to it (R218). -/

namespace Sys2Proof.Machine

/-! ### A failed byte -/

/-- The block once the sink has accepted these bytes of its frame: it offers `c` next, and what is left of the sink's script is given. -/
def State.frameAdvanced (accepted : List Byte) (c : Byte) (cs : List Byte) (es : List SinkEvent) (s : State) : State :=
  { s with sinkScript := es, hist := s.hist ++ accepted, phase := .busy c cs }

/-- A frame's bytes accepted before `c` go to the history in order, one step each (R30, R55). -/
theorem runSteps_frameAdvanced (accepted : List Byte) {s : State} {b c : Byte} {rest cs : List Byte} {es : List SinkEvent}
    (legal : profileLegal s.profile = true) (noReset : s.resetInput = []) (busy : s.phase = .busy b rest)
    (frame : b :: rest = accepted ++ c :: cs)
    (script : s.sinkScript = List.replicate accepted.length (.answers .accepted) ++ es) :
    runSteps accepted.length s = .next (s.frameAdvanced accepted c cs es) := by
  induction accepted generalizing s b rest with
  | nil =>
    obtain rfl : s.sinkScript = es := script
    obtain ⟨rfl, rfl⟩ : b = c ∧ rest = cs := List.cons.inj frame
    simp [runSteps_zero, State.frameAdvanced, ← busy]
  | cons a accepted ih =>
    obtain ⟨rfl, rfl⟩ : b = a ∧ rest = accepted ++ c :: cs := List.cons.inj frame
    obtain ⟨d, ds, next⟩ : ∃ d ds, accepted ++ c :: cs = d :: ds := List.exists_cons_of_ne_nil (by simp)
    let t := s.frameAdvanced [b] d ds (List.replicate accepted.length (.answers .accepted) ++ es)
    have hstep : step s = .next t := by
      rw [step_busy legal noReset (next ▸ busy), State.emit_accepted_cons b d ds _ s script]
      rfl
    have remaining := ih (s := t) legal noReset rfl next.symm rfl
    rw [List.length_cons, runSteps_succ _ hstep, remaining]
    simp [t, State.frameAdvanced]

/-- Settles O43: the k bytes before it are accepted, and the next step takes the failure. -/
theorem failedByteEndsTheRequest : Obligations.FailedByteEndsTheRequest := by
  intro s b rest k delivered es legal noReset busy hk script
  have count : ((b :: rest).take k).length = k := List.length_take_of_le (by rw [List.length_cons]; omega)
  obtain ⟨c, cs, left⟩ : ∃ c cs, (b :: rest).drop k = c :: cs :=
    List.exists_cons_of_length_pos (by rw [List.length_drop, List.length_cons]; omega)
  have frame : b :: rest = (b :: rest).take k ++ c :: cs := by rw [← left, List.take_append_drop]
  let t := s.frameAdvanced ((b :: rest).take k) c cs (.answers (.failed delivered) :: es)
  have run : runSteps k s = .next t := by
    simpa only [count] using runSteps_frameAdvanced _ legal noReset busy frame (count.symm ▸ script)
  have failure : step t = .next (t.emit c cs) := step_busy legal noReset rfl
  rw [runSteps_add run, runSteps_succ 0 failure, State.emit_failed c cs delivered es t rfl, left]
  rfl

/-! ### Status codes -/

/-- Settles O53, row by row of R200's table. -/
theorem statusCodes : Obligations.StatusCodes :=
  ⟨rfl, rfl, rfl, rfl, rfl⟩

/-! ### Waits -/

theorem runStep_starved {s : State} (idle : s.phase = .idle) (starved : s.offers = []) : runStep s = .next s := by
  simp [runStep, idle, idleStep, starved]

/-- Settles O47: nothing is on the port of the Idle block, and EMIT of the Busy block uses up the wait. -/
theorem waitingKeepsAllState : Obligations.WaitingKeepsAllState := by
  intro s legal noReset
  constructor
  · intro idle starved
    rw [step_no_reset s legal noReset, runStep_starved idle starved]
  · intro b rest es busy script
    rw [step_busy legal noReset busy, emit_waits script]

end Sys2Proof.Machine
end

section
/-! SUPPORT. The step of an asserted reset (R230, R37). -/

namespace Sys2Proof.Machine

/-- Settles O50: sampling the input takes its head, and only a Busy block has a byte in flight for the draw to decide. -/
theorem hardwareReset : Obligations.HardwareReset := by
  intro s delivered ls legal asserted
  have reset := step_asserted s _ delivered legal (s.sampleReset_cons _ ls asserted)
  rw [State.hardwareReset_eq] at reset
  constructor
  · intro idle
    simp only [reset, idle, List.append_nil]
  · intro b rest busy
    simp only [reset, busy]

end Sys2Proof.Machine
end
